-- ==== Sys2Proof/Word.lean ====
section
/-!
DEFINITION. The word types of the block's ports and fields (spec/00_scope.md R6, R8).
-/

namespace Sys2Proof

/-- A command word, a response word, a phase, a phase increment, a counter: 32 bits
(CMD_W, PHASE_W, SCOUNT_W, CTR_W of R6). -/
abbrev Word := BitVec 32

/-- An output sample and a word of the frequency ROM: 16 bits (SAMPLE_W, ROM_W of R6). -/
abbrev Half := BitVec 16

/-- A byte of the MIDI stream and every 8-bit operand field. -/
abbrev Byte := BitVec 8

/-- The selector of an oscillator slot as it stands in a command word, `K = w[17:16]` (R12). -/
abbrev SlotSel := BitVec 2

end Sys2Proof
end

