-- ==== Sys2Proof/Syntax.lean ====
section
/-!
DEFINITION. The commands: one constructor per row of spec/opcode_table.json (spec/30_encoding.md R76).
The arguments are the operand fields of the command word, as wide as the word holds them (R74). A field may hold a value
that R77 makes illegal; WellFormed.lean says which.
-/

namespace Sys2Proof

/-- The 21 assigned operation codes, by name (R76). -/
inductive Opcode where
  | nop | freqInit | freqRead
  | oscSetWave | oscSetLevel | oscSetCent | oscSetSemi
  | oscGetWave | oscGetLevel | oscGetCent | oscGetSemi | oscGetInc
  | mixSetNote | mixFill | mixGetNote | mixGetActive | mixGetScount
  | midiByte | midiGetNote | noteLatch | getStatus
  deriving DecidableEq, Repr

/-- A command of the PAO command set, revision 1 (R1, R76). -/
inductive Instr where
  /-- NOP (R220). -/
  | nop
  /-- FREQ_INIT (R106). -/
  | freqInit
  /-- FREQ_READ i: u8 index (R107). -/
  | freqRead (index : Byte)
  /-- OSC_SET_WAVE k, code: u2 code (R121). -/
  | oscSetWave (k : SlotSel) (code : BitVec 2)
  /-- OSC_SET_LEVEL k, level: u8 level (R122). -/
  | oscSetLevel (k : SlotSel) (level : Byte)
  /-- OSC_SET_CENT k, cent: s8 cent (R123). -/
  | oscSetCent (k : SlotSel) (cent : Byte)
  /-- OSC_SET_SEMI k, semi: s8 semitone (R124). -/
  | oscSetSemi (k : SlotSel) (semi : Byte)
  /-- OSC_GET_WAVE k (R125). -/
  | oscGetWave (k : SlotSel)
  /-- OSC_GET_LEVEL k (R126). -/
  | oscGetLevel (k : SlotSel)
  /-- OSC_GET_CENT k (R127). -/
  | oscGetCent (k : SlotSel)
  /-- OSC_GET_SEMI k (R128). -/
  | oscGetSemi (k : SlotSel)
  /-- OSC_GET_INC k, note: u8 note (R129). -/
  | oscGetInc (k : SlotSel) (note : Byte)
  /-- MIX_SET_NOTE note: u8 note (R160). -/
  | mixSetNote (note : Byte)
  /-- MIX_FILL N: u16 length (R162). -/
  | mixFill (n : Half)
  /-- MIX_GET_NOTE (R166). -/
  | mixGetNote
  /-- MIX_GET_ACTIVE (R167). -/
  | mixGetActive
  /-- MIX_GET_SCOUNT (R168). -/
  | mixGetScount
  /-- MIDI_BYTE b: u8 byte (R192). -/
  | midiByte (b : Byte)
  /-- MIDI_GET_NOTE (R198). -/
  | midiGetNote
  /-- NOTE_LATCH (R169). -/
  | noteLatch
  /-- GET_STATUS (R221). -/
  | getStatus
  deriving DecidableEq, Repr

end Sys2Proof
end

