-- ==== Sys2Proof/WellFormed.lean ====
section
/-!
DEFINITION. The value conditions of a command (spec/30_encoding.md R77, and the last column of R76's table).
-/

namespace Sys2Proof

/-- K names a slot: "K = 3 names no slot and is illegal" (R73). -/
def slotLegal (k : SlotSel) : Bool := k ≠ 3#2

/-- Wave code 3 is reserved (R24, R121). -/
def waveCodeLegal (code : BitVec 2) : Bool := code ≠ 3#2

/-- LEVEL 0..10 is legal (R25, R122). -/
def levelLegal (level : Byte) : Bool := level.toNat ≤ 10

/-- CENT -100..100 is legal, read as two's complement (R26, R123). -/
def centLegal (cent : Byte) : Bool := -100 ≤ cent.toInt ∧ cent.toInt ≤ 100

/-- A command whose operand values satisfy R77's conditions. -/
def Instr.wellFormed : Instr → Bool
  | .oscSetWave k code => slotLegal k && waveCodeLegal code
  | .oscSetLevel k level => slotLegal k && levelLegal level
  | .oscSetCent k cent => slotLegal k && centLegal cent
  | .oscSetSemi k _ => slotLegal k
  | .oscGetWave k => slotLegal k
  | .oscGetLevel k => slotLegal k
  | .oscGetCent k => slotLegal k
  | .oscGetSemi k => slotLegal k
  | .oscGetInc k _ => slotLegal k
  | .nop => true
  | .freqInit => true
  | .freqRead _ => true
  | .mixSetNote _ => true
  | .mixFill _ => true
  | .mixGetNote => true
  | .mixGetActive => true
  | .mixGetScount => true
  | .midiByte _ => true
  | .midiGetNote => true
  | .noteLatch => true
  | .getStatus => true

end Sys2Proof
end

