-- ==== Sys2Proof/Decode.lean ====
section
/-!
DEFINITION. The command word CMD32 (spec/30_encoding.md R70-R81): its fields, the opcode map, the decoder, the encoder,
and `legal`, which is R77's `Legal` written out as that rule writes it. The decoder is total and a function of the word
alone (R81).
-/

namespace Sys2Proof

/-! ### The fields of a command word (R70) -/

/-- OP = w[31:24]. -/
def opField (w : Word) : BitVec 8 := w.extractLsb' 24 8

/-- RES = w[23:18]. -/
def resField (w : Word) : BitVec 6 := w.extractLsb' 18 6

/-- K = w[17:16]. -/
def kField (w : Word) : SlotSel := w.extractLsb' 16 2

/-- IMM = w[15:0]. -/
def immField (w : Word) : Half := w.extractLsb' 0 16

/-! ### The opcode map (R74, R76) -/

/-- The value of OP (R76). -/
def Opcode.code : Opcode → BitVec 8
  | .nop => 0x00#8
  | .freqInit => 0x01#8
  | .freqRead => 0x02#8
  | .oscSetWave => 0x10#8
  | .oscSetLevel => 0x11#8
  | .oscSetCent => 0x12#8
  | .oscSetSemi => 0x13#8
  | .oscGetWave => 0x18#8
  | .oscGetLevel => 0x19#8
  | .oscGetCent => 0x1A#8
  | .oscGetSemi => 0x1B#8
  | .oscGetInc => 0x1C#8
  | .mixSetNote => 0x20#8
  | .mixFill => 0x21#8
  | .mixGetNote => 0x28#8
  | .mixGetActive => 0x29#8
  | .mixGetScount => 0x2A#8
  | .midiByte => 0x30#8
  | .midiGetNote => 0x38#8
  | .noteLatch => 0x40#8
  | .getStatus => 0x48#8

/-- The 21 rows, in the table's order (R76). -/
def Opcode.all : List Opcode :=
  [.nop, .freqInit, .freqRead, .oscSetWave, .oscSetLevel, .oscSetCent, .oscSetSemi,
   .oscGetWave, .oscGetLevel, .oscGetCent, .oscGetSemi, .oscGetInc, .mixSetNote, .mixFill,
   .mixGetNote, .mixGetActive, .mixGetScount, .midiByte, .midiGetNote, .noteLatch, .getStatus]

/-- The operation a value of OP selects; none for the 235 unassigned values (R71). -/
def Opcode.ofCode? (c : BitVec 8) : Option Opcode := Opcode.all.find? fun o => o.code == c

/-- K is an operand in the nine OSC_* commands and must be 0 in every other (R73). -/
def Opcode.takesSlot : Opcode → Bool
  | .oscSetWave | .oscSetLevel | .oscSetCent | .oscSetSemi => true
  | .oscGetWave | .oscGetLevel | .oscGetCent | .oscGetSemi | .oscGetInc => true
  | .nop | .freqInit | .freqRead | .mixSetNote | .mixFill | .mixGetNote | .mixGetActive
  | .mixGetScount | .midiByte | .midiGetNote | .noteLatch | .getStatus => false

/-- The IMM bits an operation uses; every other IMM bit must be 0 (R74, R77's UsedMask). -/
def Opcode.usedMask : Opcode → Half
  | .oscSetWave => 0x0003#16
  | .mixFill => 0xFFFF#16
  | .freqRead | .oscSetLevel | .oscSetCent | .oscSetSemi | .oscGetInc | .mixSetNote | .midiByte => 0x00FF#16
  | .nop | .freqInit | .oscGetWave | .oscGetLevel | .oscGetCent | .oscGetSemi | .mixGetNote
  | .mixGetActive | .mixGetScount | .midiGetNote | .noteLatch | .getStatus => 0x0000#16

/-- The "match" column of R76. -/
def Opcode.matchWord : Opcode → Word
  | .nop => 0x00000000#32
  | .freqInit => 0x01000000#32
  | .freqRead => 0x02000000#32
  | .oscSetWave => 0x10000000#32
  | .oscSetLevel => 0x11000000#32
  | .oscSetCent => 0x12000000#32
  | .oscSetSemi => 0x13000000#32
  | .oscGetWave => 0x18000000#32
  | .oscGetLevel => 0x19000000#32
  | .oscGetCent => 0x1A000000#32
  | .oscGetSemi => 0x1B000000#32
  | .oscGetInc => 0x1C000000#32
  | .mixSetNote => 0x20000000#32
  | .mixFill => 0x21000000#32
  | .mixGetNote => 0x28000000#32
  | .mixGetActive => 0x29000000#32
  | .mixGetScount => 0x2A000000#32
  | .midiByte => 0x30000000#32
  | .midiGetNote => 0x38000000#32
  | .noteLatch => 0x40000000#32
  | .getStatus => 0x48000000#32

/-- The "mask" column of R76. -/
def Opcode.maskWord : Opcode → Word
  | .nop => 0xFFFFFFFF#32
  | .freqInit => 0xFFFFFFFF#32
  | .freqRead => 0xFFFFFF00#32
  | .oscSetWave => 0xFFFCFFFC#32
  | .oscSetLevel => 0xFFFCFF00#32
  | .oscSetCent => 0xFFFCFF00#32
  | .oscSetSemi => 0xFFFCFF00#32
  | .oscGetWave => 0xFFFCFFFF#32
  | .oscGetLevel => 0xFFFCFFFF#32
  | .oscGetCent => 0xFFFCFFFF#32
  | .oscGetSemi => 0xFFFCFFFF#32
  | .oscGetInc => 0xFFFCFF00#32
  | .mixSetNote => 0xFFFFFF00#32
  | .mixFill => 0xFFFF0000#32
  | .mixGetNote => 0xFFFFFFFF#32
  | .mixGetActive => 0xFFFFFFFF#32
  | .mixGetScount => 0xFFFFFFFF#32
  | .midiByte => 0xFFFFFF00#32
  | .midiGetNote => 0xFFFFFFFF#32
  | .noteLatch => 0xFFFFFFFF#32
  | .getStatus => 0xFFFFFFFF#32

/-! ### Decoding -/

/-- The u8 and s8 operand field, IMM[7:0] (R74). -/
def imm8 (imm : Half) : Byte := imm.extractLsb' 0 8

/-- The u2 operand field, IMM[1:0] (R74). -/
def imm2 (imm : Half) : BitVec 2 := imm.extractLsb' 0 2

/-- The command an operation and its fields spell; the unused fields are not looked at here. -/
def Opcode.toInstr (k : SlotSel) (imm : Half) : Opcode → Instr
  | .nop => .nop
  | .freqInit => .freqInit
  | .freqRead => .freqRead (imm8 imm)
  | .oscSetWave => .oscSetWave k (imm2 imm)
  | .oscSetLevel => .oscSetLevel k (imm8 imm)
  | .oscSetCent => .oscSetCent k (imm8 imm)
  | .oscSetSemi => .oscSetSemi k (imm8 imm)
  | .oscGetWave => .oscGetWave k
  | .oscGetLevel => .oscGetLevel k
  | .oscGetCent => .oscGetCent k
  | .oscGetSemi => .oscGetSemi k
  | .oscGetInc => .oscGetInc k (imm8 imm)
  | .mixSetNote => .mixSetNote (imm8 imm)
  | .mixFill => .mixFill imm
  | .mixGetNote => .mixGetNote
  | .mixGetActive => .mixGetActive
  | .mixGetScount => .mixGetScount
  | .midiByte => .midiByte (imm8 imm)
  | .midiGetNote => .midiGetNote
  | .noteLatch => .noteLatch
  | .getStatus => .getStatus

/-- Why a word is illegal: the rows of R240's table. The machine records none of this; every reason has the same effect
(R240, R243). -/
inductive Reject where
  /-- OP is not one of the 21 assigned codes. -/
  | unassignedOp
  /-- RES is nonzero. -/
  | reservedNonzero
  /-- K ≠ 0 in a command that is not OSC_*. -/
  | slotNonzero
  /-- An IMM bit outside the operand field is set. -/
  | immNonzero
  /-- K = 3 in an OSC_* command. -/
  | slotThree
  /-- OSC_SET_WAVE with code 3. -/
  | waveCodeThree
  /-- OSC_SET_LEVEL with level 11..255. -/
  | levelRange
  /-- OSC_SET_CENT with cent outside -100..100. -/
  | centRange
  deriving DecidableEq, Repr

/-- What the decoder answers for a word. -/
inductive Decoded where
  | instr (i : Instr)
  | reject (r : Reject)
  deriving DecidableEq, Repr

/-- The instruction, where there is one. -/
def Decoded.instr? : Decoded → Option Instr
  | .instr i => some i
  | .reject _ => none

/-- The slot selector a command carries, 0 where it carries none (R73). -/
def Instr.slot : Instr → SlotSel
  | .oscSetWave k _ | .oscSetLevel k _ | .oscSetCent k _ | .oscSetSemi k _ => k
  | .oscGetWave k | .oscGetLevel k | .oscGetCent k | .oscGetSemi k | .oscGetInc k _ => k
  | .nop | .freqInit | .freqRead _ | .mixSetNote _ | .mixFill _ | .mixGetNote | .mixGetActive
  | .mixGetScount | .midiByte _ | .midiGetNote | .noteLatch | .getStatus => 0#2

/-- The name of the value condition an ill-formed command fails (R240); the slot is looked at first, which nothing can
observe (R243; log 7). -/
def valueReject (i : Instr) : Reject :=
  if i.slot = 3#2 then .slotThree
  else match i with
    | .oscSetWave _ _ => .waveCodeThree
    | .oscSetLevel _ _ => .levelRange
    | _ => .centRange

/-- The decoder. It accepts a word exactly when every condition of R77 holds. -/
def decode (w : Word) : Decoded :=
  match Opcode.ofCode? (opField w) with
  | none => .reject .unassignedOp
  | some o =>
    if resField w ≠ 0#6 then .reject .reservedNonzero
    else if o.takesSlot = false ∧ kField w ≠ 0#2 then .reject .slotNonzero
    else if immField w &&& ~~~o.usedMask ≠ 0#16 then .reject .immNonzero
    else if (o.toInstr (kField w) (immField w)).wellFormed then .instr (o.toInstr (kField w) (immField w))
    else .reject (valueReject (o.toInstr (kField w) (immField w)))

/-! ### Encoding (R76, R82) -/

/-- A command word from its fields, OP RES K IMM, with RES = 0 (R70, R72). -/
def packWord (op : BitVec 8) (k : SlotSel) (imm : Half) : Word := op ++ 0#6 ++ k ++ imm

/-- The operation of a command. -/
def Instr.opcode : Instr → Opcode
  | .nop => .nop
  | .freqInit => .freqInit
  | .freqRead _ => .freqRead
  | .oscSetWave _ _ => .oscSetWave
  | .oscSetLevel _ _ => .oscSetLevel
  | .oscSetCent _ _ => .oscSetCent
  | .oscSetSemi _ _ => .oscSetSemi
  | .oscGetWave _ => .oscGetWave
  | .oscGetLevel _ => .oscGetLevel
  | .oscGetCent _ => .oscGetCent
  | .oscGetSemi _ => .oscGetSemi
  | .oscGetInc _ _ => .oscGetInc
  | .mixSetNote _ => .mixSetNote
  | .mixFill _ => .mixFill
  | .mixGetNote => .mixGetNote
  | .mixGetActive => .mixGetActive
  | .mixGetScount => .mixGetScount
  | .midiByte _ => .midiByte
  | .midiGetNote => .midiGetNote
  | .noteLatch => .noteLatch
  | .getStatus => .getStatus

/-- The IMM field of a command: its operand with zeros above ("For an s8 operand, IMM[15:8] must be 0", R74). -/
def Instr.imm : Instr → Half
  | .oscSetWave _ code => code.setWidth 16
  | .oscSetLevel _ v | .oscSetCent _ v | .oscSetSemi _ v | .oscGetInc _ v => v.setWidth 16
  | .freqRead v | .mixSetNote v | .midiByte v => v.setWidth 16
  | .mixFill n => n
  | .nop | .freqInit | .oscGetWave _ | .oscGetLevel _ | .oscGetCent _ | .oscGetSemi _ | .mixGetNote
  | .mixGetActive | .mixGetScount | .midiGetNote | .noteLatch | .getStatus => 0#16

/-- The command word of a command (R76, R82). -/
def encode (i : Instr) : Word := packWord i.opcode.code i.slot i.imm

/-! ### Legality, as R77 writes it -/

/-- R77's UsedMask, on the value of OP. -/
def usedMaskOfOp (op : BitVec 8) : Half :=
  if op = 0x10#8 then 0x0003#16
  else if op = 0x21#8 then 0xFFFF#16
  else if op ∈ [0x02#8, 0x11#8, 0x12#8, 0x13#8, 0x1C#8, 0x20#8, 0x30#8] then 0x00FF#16
  else 0x0000#16

/-- The 21 assigned codes of R76. -/
def assignedOps : List (BitVec 8) :=
  [0x00#8, 0x01#8, 0x02#8, 0x10#8, 0x11#8, 0x12#8, 0x13#8, 0x18#8, 0x19#8, 0x1A#8, 0x1B#8, 0x1C#8,
   0x20#8, 0x21#8, 0x28#8, 0x29#8, 0x2A#8, 0x30#8, 0x38#8, 0x40#8, 0x48#8]

/-- The nine OSC_* codes (R73). -/
def slotOps : List (BitVec 8) :=
  [0x10#8, 0x11#8, 0x12#8, 0x13#8, 0x18#8, 0x19#8, 0x1A#8, 0x1B#8, 0x1C#8]

/-- `Legal(w)` of R77, conjunct by conjunct. The decoder does not use it; that the two agree is a statement. -/
abbrev legal (w : Word) : Prop :=
  opField w ∈ assignedOps
    ∧ resField w = 0#6
    ∧ (if opField w ∈ slotOps then (kField w).toNat ≤ 2 else kField w = 0#2)
    ∧ immField w &&& ~~~usedMaskOfOp (opField w) = 0#16
    ∧ (opField w = 0x10#8 → (w.extractLsb' 0 2).toNat ≤ 2)
    ∧ (opField w = 0x11#8 → (w.extractLsb' 0 8).toNat ≤ 10)
    ∧ (opField w = 0x12#8 → -100 ≤ (w.extractLsb' 0 8).toInt ∧ (w.extractLsb' 0 8).toInt ≤ 100)

/-! ### The host's reading of a table word -/

/-- The command word whose low `nbits` bits are `w` and whose other bits are 0. The ports carry whole words, so no byte
order enters (spec/20_memory.md R51; log 12). -/
def tableWord (nbits w : Nat) : Word := BitVec.ofNat 32 (w % 2 ^ nbits)

/-- The instruction the decoder reads from a word numbered as spec/opcode_table.json numbers it; none for a length other
than at most one 32-bit word (R80) and where the decoder rejects. -/
def decodeTableWord (nbits w : Nat) : Option Instr :=
  if nbits ≤ 32 then (decode (tableWord nbits w)).instr? else none

end Sys2Proof
end

