-- ==== Sys2Proof/Config.lean ====
section
/-!
DEFINITION. What is fixed for the machine (spec/00_scope.md R6, spec/10_state.md R37): the constants of this hardware,
and its one parameter. The spec leaves no value of an instruction open, so there is no free value here (log 9).
-/

namespace Sys2Proof

/-- P_FS, samples per second (R6). -/
def Config.sampleRate : Nat := 44100

/-- N_NOTES (R6). -/
def Config.noteCount : Nat := 128

/-- N_OSC (R6). -/
def Config.oscCount : Nat := 3

/-- P_REF_NOTE (R6; spec/90_conflicts.md C1 chooses 57). -/
def Config.refNote : Nat := 57

/-- P_REF_HZ (R6). -/
def Config.refHz : Nat := 440

/-- N_MAX_FILL, the largest length of one MIX_FILL (R6). -/
def Config.maxFill : Nat := 65535

/-- The block's one parameter, P_MAX_AMPLITUDE (R6, R7). Configuration, not state (R37): no command changes it.
The field's width gives the bound 65535, and 0 is rejected by the second field, so no block can be built with a value
outside 1..65535 (R7). -/
structure Params where
  maxAmplitude : Half
  positive : 1 ≤ maxAmplitude.toNat := by decide
  deriving DecidableEq, Repr

/-- P_MAX_AMPLITUDE is an integer in 1..65535 (R6). True of every `Params`. -/
abbrev Params.valid (p : Params) : Prop := 1 ≤ p.maxAmplitude.toNat ∧ p.maxAmplitude.toNat ≤ 65535

/-- The spec's default, used by every vector of spec/95_test_vectors.md (R6, decision D10). -/
def Params.default : Params := { maxAmplitude := 65535#16 }

/-- Building the parameter from a number: "A model that takes P_MAX_AMPLITUDE as an argument must reject values outside
1..65535" (R7; spec/93_implementation_defined.md I1). -/
def Params.ofAmplitude? (n : Nat) : Option Params :=
  if h : 1 ≤ n ∧ n ≤ 65535 then
    some { maxAmplitude := BitVec.ofNat 16 n, positive := by rw [BitVec.toNat_ofNat]; omega }
  else none

end Sys2Proof
end

