-- ==== Sys2Proof/Machine/State.lean ====
section
/-!
DEFINITION. The state of the block (spec/10_state.md): the architectural record of R41, the parameter, and the ports.
-/

namespace Sys2Proof.Machine

/-- `OSC[k].WAVE` (R24): 0 None, 1 Square, 2 Sawtooth. The register never holds code 3. -/
inductive Wave where
  | none
  | square
  | sawtooth
  deriving DecidableEq, Repr

/-- `MST`, the parser state (R34). Its encoding in bits is not architectural. -/
inductive ParserState where
  | idle
  | onNote
  | onVel
  | offNote
  | offVel
  deriving DecidableEq, Repr

/-- One oscillator slot: four parameter fields and nothing else (R23-R27; spec/41_oscillator.md R120).
Values that a field never holds are kept out by the invariant of Safety.lean, not by the types (log 6). -/
structure Osc where
  /-- WAVE (R24). -/
  wave : Wave
  /-- LEVEL, unsigned (R25). -/
  level : BitVec 4
  /-- CENT, two's complement (R26). -/
  cent : Byte
  /-- SEMI, two's complement (R27). -/
  semi : Byte
  deriving DecidableEq, Repr

/-- The complete architectural state: exactly the fields of R41's record. -/
structure Arch where
  /-- OSC[0..2] (R23). -/
  osc : Vector Osc 3
  /-- CUR_NOTE, the note the mixer plays, 0 for none (R28). -/
  curNote : BitVec 7
  /-- SCOUNT, written S: the absolute sample counter (R29). -/
  scount : Word
  /-- CTR[0..127], the note counters, 0 for off (R32). -/
  ctr : Vector Word 128
  /-- ACT, the activation counter (R33). -/
  act : Word
  /-- MST (R34). -/
  mst : ParserState
  /-- MNOTE, the captured note byte (R35). -/
  mnote : Byte
  /-- ERR, the one status flag (R22). -/
  err : Bool
  deriving DecidableEq, Repr

/-- A word the block has put on one of its two output ports. -/
inductive PortWord where
  /-- On the response port (R38). -/
  | response (w : Word)
  /-- On the sample port (R39). -/
  | sample (v : Half)
  deriving DecidableEq, Repr

/-- The block with its ports. DESIGN CHOICE (log 1, log 3, log 4, log 5): the ports and the parameter stand beside R41's
record, since a step is a function of this state alone. -/
structure State where
  /-- P_MAX_AMPLITUDE: configuration, which no command writes (R37). -/
  params : Params
  /-- R41's record. -/
  arch : Arch
  /-- The command words delivered and not yet taken, oldest first (R40). -/
  cmdPort : List Word
  /-- Every word put on the response port and the sample port, oldest first (R38, R39; spec/20_memory.md R57). -/
  outPort : List PortWord
  deriving DecidableEq, Repr

/-- The faults that stop the machine: none. The block's one exception, IllegalCommand, does not stop it
(spec/60_exceptions.md R241: "Execution continues with the next command"), and every command is defined from every state
(R242; spec/70_reset_and_hazards.md R263). -/
inductive Fault where
  deriving DecidableEq, Repr

/-- The refusals. -/
inductive Refusal where
  /-- Raised by an arm of Dispatch.lean whose instruction has no meaning yet, and by nothing else. Safe. No arm of this
  model raises it. -/
  | notModelled (mnemonic : String)
  deriving DecidableEq, Repr

/-- The outcome of a command. -/
abbrev Result := Host.Outcome State Fault Refusal

/-- The reset values of the three slots (R23): Square, level 10, semitone 0, cent 0, +8 and -8. -/
def Osc.resetSlots : Vector Osc 3 :=
  #v[{ wave := .square, level := 10#4, cent := 0#8, semi := 0#8 },
     { wave := .square, level := 10#4, cent := 8#8, semi := 0#8 },
     { wave := .square, level := 10#4, cent := 0xF8#8, semi := 0#8 }]

/-- R41's record after reset (R22-R35; spec/70_reset_and_hazards.md R260). -/
def Arch.reset : Arch where
  osc := Osc.resetSlots
  curNote := 0#7
  scount := 0#32
  ctr := Vector.replicate 128 0#32
  act := 0#32
  mst := .idle
  mnote := 0#8
  err := false

/-- The block after reset with a given parameter: the ports are empty and no command is in progress (R260). -/
def State.resetWith (p : Params) : State where
  params := p
  arch := Arch.reset
  cmdPort := []
  outPort := []

/-- The model of R7 that "takes P_MAX_AMPLITUDE as an argument": the block after reset, built from a number; none outside
1..65535. -/
def State.ofAmplitude? (n : Nat) : Option State := (Params.ofAmplitude? n).map State.resetWith

/-- The block after reset, with the spec's default parameter (R6, R260). -/
def State.reset : State := State.resetWith Params.default

/-- The words of the response port, in order (R38). -/
def State.responses (s : State) : List Word :=
  s.outPort.filterMap fun o => match o with
    | .response w => some w
    | .sample _ => Option.none

/-- The words of the sample port, in order (R39). -/
def State.samples (s : State) : List Half :=
  s.outPort.filterMap fun o => match o with
    | .response _ => Option.none
    | .sample v => some v

end Sys2Proof.Machine
end

