-- ==== Sys2Proof/Machine/Flags.lean ====
section
/-!
DEFINITION. The block's only status flag, ERR (spec/10_state.md R22). No legal command writes it; IllegalCommand sets it;
only reset clears it.
-/

namespace Sys2Proof.Machine

/-- `ERR <- 1` (spec/60_exceptions.md R241). -/
def State.setErr (s : State) : State := { s with arch := { s.arch with err := true } }

/-- `zext_32(ERR)`: bit 0 is ERR, bits 31:1 are 0 (spec/30_encoding.md R84). -/
def errWord (err : Bool) : Word := if err then 1#32 else 0#32

end Sys2Proof.Machine
end

