-- ==== Sys2Proof/Machine/Operands.lean ====
section
/-!
DEFINITION. The operand forms (spec/30_encoding.md R73, R74) and the widening of fields into response words (R84).
-/

namespace Sys2Proof.Machine

/-- The slot a selector names; none for K = 3 (R73). -/
def slotOf? (k : SlotSel) : Option (Fin 3) :=
  if h : k.toNat < 3 then some ⟨k.toNat, h⟩ else none

/-- The waveform a u2 code names; none for code 3 (spec/10_state.md R24). -/
def Wave.ofCode? (code : BitVec 2) : Option Wave :=
  if code = 0#2 then some .none
  else if code = 1#2 then some .square
  else if code = 2#2 then some .sawtooth
  else Option.none

/-- The 2-bit code of a waveform (spec/10_state.md R24). -/
def Wave.code : Wave → BitVec 2
  | .none => 0#2
  | .square => 1#2
  | .sawtooth => 2#2

/-- The 4-bit LEVEL field of a u8 operand; none outside 0..10 (spec/10_state.md R25). -/
def levelOf? (level : Byte) : Option (BitVec 4) :=
  if level.toNat ≤ 10 then some (level.setWidth 4) else none

/-- The CENT field of an s8 operand; none outside -100..100 (spec/10_state.md R26). -/
def centOf? (cent : Byte) : Option Byte :=
  if -100 ≤ cent.toInt ∧ cent.toInt ≤ 100 then some cent else none

/-- The note a u8 operand or a computed index sets: clamped to 0..127 (spec/42_mixer.md R160, R169). -/
def clampNote (n : Nat) : BitVec 7 := BitVec.ofNat 7 (min n 127)

/-- `zext_32` (spec/00_scope.md R10). -/
def zext32 {n : Nat} (v : BitVec n) : Word := v.setWidth 32

/-- `sext_32` (spec/00_scope.md R10). -/
def sext32 {n : Nat} (v : BitVec n) : Word := v.signExtend 32

end Sys2Proof.Machine
end

