-- ==== Sys2Proof/Machine/Ops.lean ====
section
/-!
DEFINITION. The named operations over the ports and the registers, and the one exception (spec/00_scope.md R11,
spec/10_state.md section 8, spec/60_exceptions.md R241).
-/

namespace Sys2Proof.Machine

/-! ### The command port (R40; spec/20_memory.md R56) -/

/-- The host delivers a command word: it arrives after all the words delivered before it. -/
def State.offer (s : State) (w : Word) : State := { s with cmdPort := s.cmdPort ++ [w] }

/-- The oldest word on the command port and the state without it; none where no command waits. -/
def State.takeCommand? (s : State) : Option (Word × State) :=
  match s.cmdPort with
  | [] => none
  | w :: rest => some (w, { s with cmdPort := rest })

/-- A word placed so that it is the next the block takes. -/
def State.placeNext (s : State) (w : Word) : State := { s with cmdPort := w :: s.cmdPort }

/-- No command waits: the block waits, with its state as it is (spec/70_reset_and_hazards.md R262).
DESIGN CHOICE (log 1). -/
def waitForCommand (s : State) : Result := .next s

/-! ### The output ports (R38, R39) -/

/-- `Respond(v)` (spec/00_scope.md R11). -/
def State.respond (s : State) (v : Word) : State := { s with outPort := s.outPort ++ [.response v] }

/-- `Emit(v)` for each word of a list, the first word first (spec/00_scope.md R11, spec/20_memory.md R57). -/
def State.emitAll (s : State) (vs : List Half) : State := { s with outPort := s.outPort ++ vs.map .sample }

/-- A command that answers with one word and changes no register (spec/30_encoding.md R84, spec/20_memory.md R54). -/
def answer (s : State) (v : Word) : Result := .next (s.respond v)

/-! ### The registers (spec/00_scope.md R11) -/

/-- `OSC[k] <- o`. -/
def State.setOsc (s : State) (k : Fin 3) (o : Osc) : State :=
  { s with arch := { s.arch with osc := s.arch.osc.set k.val o k.isLt } }

/-- `CUR_NOTE <- n`. -/
def State.setCurNote (s : State) (n : BitVec 7) : State := { s with arch := { s.arch with curNote := n } }

/-- `S <- (S + n) mod 2^32` (spec/10_state.md R29). -/
def State.advanceScount (s : State) (n : Nat) : State :=
  { s with arch := { s.arch with scount := s.arch.scount + BitVec.ofNat 32 n } }

/-- `CTR[n] <- v`. -/
def Arch.setCtr (a : Arch) (n : Fin 128) (v : Word) : Arch := { a with ctr := a.ctr.set n.val v n.isLt }

/-- `MST <- m`. -/
def Arch.setMst (a : Arch) (m : ParserState) : Arch := { a with mst := m }

/-- `MNOTE <- b; MST <- m`: a note byte is captured (spec/43_midi_parser.md R191). -/
def Arch.capture (a : Arch) (b : Byte) (m : ParserState) : Arch := { a with mnote := b, mst := m }

/-! ### The exception -/

/-- `raise IllegalCommand(w)`: "ERR <- 1; no other state changes; no response word; no sample words", and "Execution
continues with the next command" (spec/60_exceptions.md R241). It saves nothing, changes no mode and transfers no control,
and there is no return from it (R245, R246). -/
def raiseIllegal (s : State) : Result := .next s.setErr

/-- The effect of a command that needs a legal operand: the exception where the operand is illegal, before anything is
written (spec/60_exceptions.md R241: "It is checked whole before anything is written"). -/
def withOperand {α : Type} (v : Option α) (s : State) (effect : α → Result) : Result :=
  match v with
  | some a => effect a
  | none => raiseIllegal s

end Sys2Proof.Machine
end

