-- ==== Sys2Proof/Machine/Control.lean ====
section
/-!
DEFINITION. The control commands (spec/44_control.md).
-/

namespace Sys2Proof.Machine

/-- NOP: no state change, no output (R220). -/
def execNop (s : State) : Result := .next s

/-- GET_STATUS: reading ERR does not clear it (R221). -/
def execGetStatus (s : State) : Result := answer s (errWord s.arch.err)

end Sys2Proof.Machine
end

