-- ==== Sys2Proof/Machine/FreqRom.lean ====
section
/-!
DEFINITION. The frequency ROM and its two commands (spec/40_frequency_rom.md).
-/

namespace Sys2Proof.Machine

/-- Words 0..31 of the ROM (R103). -/
def romQuarter0 : List Half :=
  [0x084D#16, 0x09BF#16, 0x0B47#16, 0x0CE6#16, 0x0E9E#16, 0x1038#16, 0x112F#16, 0x1234#16,
   0x1349#16, 0x146F#16, 0x15A6#16, 0x16F0#16, 0x184D#16, 0x19BF#16, 0x1B47#16, 0x1CE6#16,
   0x1E9E#16, 0x2038#16, 0x212F#16, 0x2234#16, 0x2349#16, 0x246F#16, 0x25A6#16, 0x26F0#16,
   0x284D#16, 0x29BF#16, 0x2B47#16, 0x2CE6#16, 0x2E9E#16, 0x3038#16, 0x312F#16, 0x3234#16]

/-- Words 32..63 of the ROM (R103). -/
def romQuarter1 : List Half :=
  [0x3349#16, 0x346F#16, 0x35A6#16, 0x36F0#16, 0x384D#16, 0x39BF#16, 0x3B47#16, 0x3CE6#16,
   0x3E9E#16, 0x4038#16, 0x412F#16, 0x4234#16, 0x4349#16, 0x446F#16, 0x45A6#16, 0x46F0#16,
   0x484D#16, 0x49BF#16, 0x4B47#16, 0x4CE6#16, 0x4E9E#16, 0x5038#16, 0x512F#16, 0x5234#16,
   0x5349#16, 0x546F#16, 0x55A6#16, 0x56F0#16, 0x584D#16, 0x59BF#16, 0x5B47#16, 0x5CE6#16]

/-- Words 64..95 of the ROM (R103). -/
def romQuarter2 : List Half :=
  [0x5E9E#16, 0x6038#16, 0x612F#16, 0x6234#16, 0x6349#16, 0x646F#16, 0x65A6#16, 0x66F0#16,
   0x684D#16, 0x69BF#16, 0x6B47#16, 0x6CE6#16, 0x6E9E#16, 0x7038#16, 0x712F#16, 0x7234#16,
   0x7349#16, 0x746F#16, 0x75A6#16, 0x76F0#16, 0x784D#16, 0x79BF#16, 0x7B47#16, 0x7CE6#16,
   0x7E9E#16, 0x8038#16, 0x812F#16, 0x8234#16, 0x8349#16, 0x846F#16, 0x85A6#16, 0x86F0#16]

/-- Words 96..127 of the ROM (R103). -/
def romQuarter3 : List Half :=
  [0x884D#16, 0x89BF#16, 0x8B47#16, 0x8CE6#16, 0x8E9E#16, 0x9038#16, 0x912F#16, 0x9234#16,
   0x9349#16, 0x946F#16, 0x95A6#16, 0x96F0#16, 0x984D#16, 0x99BF#16, 0x9B47#16, 0x9CE6#16,
   0x9E9E#16, 0xA038#16, 0xA12F#16, 0xA234#16, 0xA349#16, 0xA46F#16, 0xA5A6#16, 0xA6F0#16,
   0xA84D#16, 0xA9BF#16, 0xAB47#16, 0xACE6#16, 0xAE9E#16, 0xB038#16, 0xB12F#16, 0xB234#16]

/-- The 128 words of the ROM, index 0 first (R100, R103). -/
def romWords : List Half := romQuarter0 ++ romQuarter1 ++ romQuarter2 ++ romQuarter3

/-- `ROM[i]` for 0 ≤ i ≤ 127 (spec/00_scope.md R11). Callers check the index first (R104, R107). -/
def rom (i : Nat) : Half := romWords.getD i 0#16

/-- `Dec(word) = (4096 + word[11:0]) << (word[15:12] + 8)` (R101). -/
def dec (w : Half) : Nat := (4096 + (w.extractLsb' 0 12).toNat) <<< ((w.extractLsb' 12 4).toNat + 8)

/-- `FreqInc(e)`: the increment at a signed index, 0 outside the table (R104). -/
def freqInc (e : Int) : Nat := if 0 ≤ e ∧ e ≤ 127 then dec (rom e.toNat) else 0

/-- `FreqWord(i)`: the ROM word, 0 for an index of 128 or more (R107). -/
def freqWord (i : Byte) : Half := if i.toNat ≤ 127 then rom i.toNat else 0#16

/-- FREQ_INIT: no state change, no output (R106). -/
def execFreqInit (s : State) : Result := .next s

/-- FREQ_READ i (R107). -/
def execFreqRead (i : Byte) (s : State) : Result := answer s (zext32 (freqWord i))

end Sys2Proof.Machine
end

