-- ==== Sys2Proof/Machine/Midi.lean ====
section
/-!
DEFINITION. The MIDI byte parser and the note tracker (spec/43_midi_parser.md).
-/

namespace Sys2Proof.Machine

/-- The four byte classes (R190). -/
inductive ByteClass where
  | realTime
  | noteOn
  | noteOff
  | other
  deriving DecidableEq, Repr

/-- The class of a byte, tested in R190's order. -/
def byteClass (b : Byte) : ByteClass :=
  if b = 0xFE#8 ∨ b = 0xFF#8 then .realTime
  else if b.extractLsb' 4 4 = 0x9#4 then .noteOn
  else if b.extractLsb' 4 4 = 0x8#4 then .noteOff
  else .other

/-- `min(ACT + 1, 2^32 - 1)`: ACT saturates (R196). -/
def nextActivation (act : Word) : Word := BitVec.ofNat 32 (min (act.toNat + 1) (2 ^ 32 - 1))

/-- A write of the counter a note byte names; a byte of 128 or more names none, and nothing changes (R195). -/
def Arch.onNote (a : Arch) (n : Byte) (effect : Fin 128 → Arch) : Arch :=
  if h : n.toNat < 128 then effect ⟨n.toNat, h⟩ else a

/-- `NoteOn(n, v)` (R193): ACT advances before the note's counter takes its value. -/
def Arch.noteOn (a : Arch) (n v : Byte) : Arch :=
  a.onNote n fun i =>
    if v = 0#8 then a.setCtr i 0#32
    else ({ a with act := nextActivation a.act }).setCtr i (nextActivation a.act)

/-- `NoteOff(n)` (R194). -/
def Arch.noteOff (a : Arch) (n : Byte) : Arch := a.onNote n fun i => a.setCtr i 0#32

/-- A byte of class OTHER, in each state of the parser (R191). -/
def Arch.dataByte (a : Arch) (b : Byte) : Arch :=
  match a.mst with
  | .idle => a
  | .onNote => a.capture b .onVel
  | .offNote => a.capture b .offVel
  | .onVel => (a.noteOn a.mnote b).setMst .idle
  | .offVel => (a.noteOff a.mnote).setMst .idle

/-- One byte of the MIDI stream (R191, R192). -/
def Arch.midiByte (a : Arch) (b : Byte) : Arch :=
  match byteClass b with
  | .realTime => a
  | .noteOn => a.setMst .onNote
  | .noteOff => a.setMst .offNote
  | .other => a.dataByte b

/-- R197's scan of the counters from index `i` on, with the largest value and its index so far. The comparison is strict,
so the lowest index wins a tie. -/
def soundingScan : List Word → (i best idx : Nat) → Nat
  | [], _, _, idx => idx
  | c :: rest, i, best, idx =>
    if c.toNat > best then soundingScan rest (i + 1) c.toNat i else soundingScan rest (i + 1) best idx

/-- `Sounding()`: the index of the largest counter, 0 where all are 0 (R197). -/
def Arch.sounding (a : Arch) : Nat := soundingScan a.ctr.toList 0 0 0

/-- MIDI_BYTE b (R192). -/
def execMidiByte (b : Byte) (s : State) : Result := .next { s with arch := s.arch.midiByte b }

/-- MIDI_GET_NOTE (R198). -/
def execMidiGetNote (s : State) : Result := answer s (BitVec.ofNat 32 s.arch.sounding)

end Sys2Proof.Machine
end

