-- ==== Sys2Proof/Machine/Oscillator.lean ====
section
/-!
DEFINITION. The oscillators: their accessors, their phase increment, and the square and sawtooth generator
(spec/41_oscillator.md). The arithmetic is on exact integers and is narrowed where the rule narrows it
(spec/00_scope.md R9).
-/

namespace Sys2Proof.Machine

/-! ### Pitch (R130-R132) -/

/-- The interpolation of R130 and R131: from the base increment toward the neighbour's by |cent| hundredths, the quotient
rounded toward zero. -/
def interpolate (base nb : Int) (cent : Int) : Int := base + Int.tdiv ((nb - base) * (cent.natAbs : Int)) 100

/-- `Inc` of R130 as the exact integer the rule computes. `note` is 0..255. -/
def incInt (o : Osc) (note : Nat) : Int :=
  if note = 0 then 0
  else
    let e0 : Int := (note : Int) + o.semi.toInt
    let c : Int := o.cent.toInt
    if c = 0 then (freqInc e0 : Int)
    else interpolate (freqInc e0) (freqInc (if 0 < c then e0 + 1 else e0 - 1)) c

/-- `Inc(k, note)` as the 32-bit phase increment (R129, R130). For every CENT the register can hold the exact integer lies
in 0..2^32-1 (R131), so nothing is lost in the narrowing. -/
def inc (o : Osc) (note : Nat) : Word := BitVec.ofInt 32 (incInt o note)

/-! ### Waveforms (R133-R139) -/

/-- `Phase(inc, n) = (n * inc) mod 2^32` (R133). -/
def phase (inc n : Word) : Word := n * inc

/-- `Peak(k, c) = floor(P_MAX_AMPLITUDE * LEVEL / (10 * c))` (R134). -/
def peak (p : Params) (level : BitVec 4) (c : Nat) : Nat := p.maxAmplitude.toNat * level.toNat / (10 * c)

/-- SquareOut: Peak while the phase is above 2^31, else 0; the comparison is strict (R136). -/
def squareOut (pk : Nat) (ph : Word) : Nat := if ph.toNat > 2 ^ 31 then pk else 0

/-- SawOut: (Peak * Phase) >> 32, the product exact and the shift truncating (R137). -/
def sawOut (pk : Nat) (ph : Word) : Nat := (pk * ph.toNat) >>> 32

/-- `Contrib(k, inc, n, c)` (R135-R139). -/
def contrib (p : Params) (o : Osc) (inc n : Word) (c : Nat) : Nat :=
  match o.wave with
  | .none => 0
  | .square => squareOut (peak p o.level c) (phase inc n)
  | .sawtooth => sawOut (peak p o.level c) (phase inc n)

/-! ### The accessors (R121-R129) -/

/-- The effect of a command on the slot its K names: `IllegalCommand` for K = 3 (R121-R129;
spec/30_encoding.md R73). -/
def onSlot (k : SlotSel) (s : State) (effect : Fin 3 → Osc → Result) : Result :=
  withOperand (slotOf? k) s fun j => effect j s.arch.osc[j]

/-- OSC_SET_WAVE k, code (R121). -/
def execOscSetWave (k : SlotSel) (code : BitVec 2) (s : State) : Result :=
  onSlot k s fun j o => withOperand (Wave.ofCode? code) s fun v => .next (s.setOsc j { o with wave := v })

/-- OSC_SET_LEVEL k, level (R122). -/
def execOscSetLevel (k : SlotSel) (level : Byte) (s : State) : Result :=
  onSlot k s fun j o => withOperand (levelOf? level) s fun v => .next (s.setOsc j { o with level := v })

/-- OSC_SET_CENT k, cent (R123). -/
def execOscSetCent (k : SlotSel) (cent : Byte) (s : State) : Result :=
  onSlot k s fun j o => withOperand (centOf? cent) s fun v => .next (s.setOsc j { o with cent := v })

/-- OSC_SET_SEMI k, semi: every semitone value is legal (R124). -/
def execOscSetSemi (k : SlotSel) (semi : Byte) (s : State) : Result :=
  onSlot k s fun j o => .next (s.setOsc j { o with semi := semi })

/-- OSC_GET_WAVE k (R125). -/
def execOscGetWave (k : SlotSel) (s : State) : Result := onSlot k s fun _ o => answer s (zext32 o.wave.code)

/-- OSC_GET_LEVEL k (R126). -/
def execOscGetLevel (k : SlotSel) (s : State) : Result := onSlot k s fun _ o => answer s (zext32 o.level)

/-- OSC_GET_CENT k: sign-extended (R127). -/
def execOscGetCent (k : SlotSel) (s : State) : Result := onSlot k s fun _ o => answer s (sext32 o.cent)

/-- OSC_GET_SEMI k: sign-extended (R128). -/
def execOscGetSemi (k : SlotSel) (s : State) : Result := onSlot k s fun _ o => answer s (sext32 o.semi)

/-- OSC_GET_INC k, note: the note is not clamped (R129). -/
def execOscGetInc (k : SlotSel) (note : Byte) (s : State) : Result :=
  onSlot k s fun _ o => answer s (inc o note.toNat)

end Sys2Proof.Machine
end

