-- ==== Sys2Proof/Machine/Mixer.lean ====
section
/-!
DEFINITION. The 3-way sample mixer and the note latch (spec/42_mixer.md).
-/

namespace Sys2Proof.Machine

/-- A slot counts as active when its waveform is not None; LEVEL does not enter (R161). -/
def Osc.active (o : Osc) : Bool := o.wave ≠ .none

/-- `ActiveCount()`, 0..3 (R161). -/
def Arch.activeCount (a : Arch) : Nat := a.osc.toList.countP Osc.active

/-- `inc[k]` for the three slots, fixed at the start of a fill (R162). -/
def Arch.increments (a : Arch) : Vector Word 3 := a.osc.map fun o => inc o a.curNote.toNat

/-- `Sample(n)` as the exact sum of R163, with the increments and the active count fixed at the start of the fill. -/
def sampleSum (p : Params) (osc : Vector Osc 3) (incs : Vector Word 3) (c : Nat) (n : Word) : Nat :=
  contrib p osc[0] incs[0] n c + contrib p osc[1] incs[1] n c + contrib p osc[2] incs[2] n c

/-- The word the sample port carries for `Sample(n)`. For every LEVEL the registers can hold the sum fits its 16 bits
(R164). -/
def sampleWord (p : Params) (osc : Vector Osc 3) (incs : Vector Word 3) (c : Nat) (n : Word) : Half :=
  BitVec.ofNat 16 (sampleSum p osc incs c n)

/-- The samples of a fill of length `n` with a note set: sample i at absolute index (S + i) mod 2^32 (R162). -/
def fillSamples (p : Params) (a : Arch) (n : Nat) : List Half :=
  (List.range n).map fun i => sampleWord p a.osc a.increments a.activeCount (a.scount + BitVec.ofNat 32 i)

/-- MIX_SET_NOTE note: clamped to 0..127 (R160). -/
def execMixSetNote (note : Byte) (s : State) : Result := .next (s.setCurNote (clampNote note.toNat))

/-- MIX_FILL N (R162): the silence path (R165), or N samples and S advanced by N. -/
def execMixFill (n : Half) (s : State) : Result :=
  if s.arch.curNote = 0#7 then .next (s.emitAll (List.replicate n.toNat 0#16))
  else .next ((s.emitAll (fillSamples s.params s.arch n.toNat)).advanceScount n.toNat)

/-- MIX_GET_NOTE (R166). -/
def execMixGetNote (s : State) : Result := answer s (zext32 s.arch.curNote)

/-- MIX_GET_ACTIVE (R167). -/
def execMixGetActive (s : State) : Result := answer s (BitVec.ofNat 32 s.arch.activeCount)

/-- MIX_GET_SCOUNT (R168). -/
def execMixGetScount (s : State) : Result := answer s s.arch.scount

/-- NOTE_LATCH: the tracker's sounding note goes to the mixer, through the same clamp (R169). -/
def execNoteLatch (s : State) : Result := .next (s.setCurNote (clampNote s.arch.sounding))

end Sys2Proof.Machine
end

