-- ==== Sys2Proof/Machine/Dispatch.lean ====
section
/-! DEFINITION. The meaning of every command, one arm per constructor (spec/30_encoding.md R76). -/

namespace Sys2Proof.Machine

def exec (i : Instr) (s : State) : Host.Outcome State Fault Refusal :=
  match i with
  | .nop => Sys2Proof.Machine.execNop s
  | .freqInit => Sys2Proof.Machine.execFreqInit s
  | .freqRead index => Sys2Proof.Machine.execFreqRead index s
  | .oscSetWave k code => Sys2Proof.Machine.execOscSetWave k code s
  | .oscSetLevel k level => Sys2Proof.Machine.execOscSetLevel k level s
  | .oscSetCent k cent => Sys2Proof.Machine.execOscSetCent k cent s
  | .oscSetSemi k semi => Sys2Proof.Machine.execOscSetSemi k semi s
  | .oscGetWave k => Sys2Proof.Machine.execOscGetWave k s
  | .oscGetLevel k => Sys2Proof.Machine.execOscGetLevel k s
  | .oscGetCent k => Sys2Proof.Machine.execOscGetCent k s
  | .oscGetSemi k => Sys2Proof.Machine.execOscGetSemi k s
  | .oscGetInc k note => Sys2Proof.Machine.execOscGetInc k note s
  | .mixSetNote note => Sys2Proof.Machine.execMixSetNote note s
  | .mixFill n => Sys2Proof.Machine.execMixFill n s
  | .mixGetNote => Sys2Proof.Machine.execMixGetNote s
  | .mixGetActive => Sys2Proof.Machine.execMixGetActive s
  | .mixGetScount => Sys2Proof.Machine.execMixGetScount s
  | .midiByte b => Sys2Proof.Machine.execMidiByte b s
  | .midiGetNote => Sys2Proof.Machine.execMidiGetNote s
  | .noteLatch => Sys2Proof.Machine.execNoteLatch s
  | .getStatus => Sys2Proof.Machine.execGetStatus s

end Sys2Proof.Machine
end

