-- ==== Sys2Proof/Machine/Step.lean ====
section
/-!
DEFINITION. One step: the block takes the oldest word of the command port and executes it whole
(spec/20_memory.md R56, R59).
-/

namespace Sys2Proof.Machine

/-- One command word: the meaning of the command it decodes to, or IllegalCommand (spec/30_encoding.md R77). -/
def runWord (w : Word) (s : State) : Result :=
  match decode w with
  | .instr i => exec i s
  | .reject _ => raiseIllegal s

/-- One step of the block. -/
def step (s : State) : Host.Outcome State Fault Refusal :=
  match s.takeCommand? with
  | none => waitForCommand s
  | some (w, s') => runWord w s'

/-- `s` with a table word placed so that the very next step runs it: the host's delivery of one command (log 2). -/
def State.withFetchWord (s : State) (nbits w : Nat) : State := s.placeNext (tableWord nbits w)

/-- Power lost and restored: "Losing power loses all state; power-up is reset" (spec/60_exceptions.md R252,
spec/70_reset_and_hazards.md R260). An event from outside, no step. The parameter is no state and stays (log 8). -/
def State.powerCycle (s : State) : State := State.resetWith s.params

end Sys2Proof.Machine
end

