-- ==== Sys2Proof/Machine/Pseudo.lean ====
section
/-!
DEFINITION. The pseudo-instructions and their expansions (spec/30_encoding.md R83). They are no rows of the opcode table:
each is another spelling of a sequence of commands.
-/

namespace Sys2Proof.Machine

/-- The six pseudo-instructions of R83. -/
inductive Pseudo where
  /-- `NOTE_ON n, v`. -/
  | noteOn (n v : Byte)
  /-- `NOTE_OFF n`. -/
  | noteOff (n : Byte)
  /-- `SILENCE`. -/
  | silence
  /-- `OSC_OFF k`. -/
  | oscOff (k : SlotSel)
  /-- `PERIOD N`. -/
  | period (n : Half)
  /-- `OSC_DEFAULTS`. -/
  | oscDefaults
  deriving DecidableEq, Repr

/-- Wave, level and semitone of one slot at their defaults (R83, the loop of OSC_DEFAULTS). -/
def slotDefaults (k : SlotSel) : List Instr := [.oscSetWave k 1#2, .oscSetLevel k 10#8, .oscSetSemi k 0#8]

/-- The expansion column of R83. -/
def Pseudo.expand : Pseudo → List Instr
  | .noteOn n v => [.midiByte 0x90#8, .midiByte n, .midiByte v]
  | .noteOff n => [.midiByte 0x80#8, .midiByte n, .midiByte 0x00#8]
  | .silence => [.mixSetNote 0#8]
  | .oscOff k => [.oscSetWave k 0#2]
  | .period n => [.noteLatch, .mixFill n]
  | .oscDefaults =>
    slotDefaults 0#2 ++ slotDefaults 1#2 ++ slotDefaults 2#2
      ++ [.oscSetCent 0#2 0#8, .oscSetCent 1#2 8#8, .oscSetCent 2#2 (BitVec.ofInt 8 (-8))]

/-- The command words of a pseudo-instruction. -/
def Pseudo.words (p : Pseudo) : List Word := p.expand.map encode

end Sys2Proof.Machine
end

