-- ==== Sys2Proof/Machine/Assembler.lean ====
section
/-!
DEFINITION. The assembler's syntax (spec/30_encoding.md R82) with the pseudo-instructions of R83: one line of text to the
words it stands for. A line is a list of characters. Where R82 does not say, white space separates and is otherwise
skipped (log 11).
-/

namespace Sys2Proof.Machine

/-! ### Numbers -/

/-- A digit of a base up to sixteen. -/
def digitValue? (base : Nat) (c : Char) : Option Nat :=
  let v := if '0' ≤ c ∧ c ≤ '9' then c.toNat - '0'.toNat
    else if 'a' ≤ c ∧ c ≤ 'f' then c.toNat - 'a'.toNat + 10
    else if 'A' ≤ c ∧ c ≤ 'F' then c.toNat - 'A'.toNat + 10
    else base
  if v < base then some v else none

/-- Digits, read on from the value of the digits before them. -/
def digitsFrom? (base acc : Nat) : List Char → Option Nat
  | [] => some acc
  | c :: cs => (digitValue? base c).bind fun d => digitsFrom? base (acc * base + d) cs

/-- `number := decimal digits | "0x" hex digits` (R82); at least one digit. -/
def number? : List Char → Option Nat
  | [] => none
  | ['0', 'x'] => none
  | '0' :: 'x' :: ds => digitsFrom? 16 0 ds
  | ds => digitsFrom? 10 0 ds

/-- The names a wave code may be written as (R82). -/
def waveName? (cs : List Char) : Option Int :=
  if cs = "NONE".toList then some 0
  else if cs = "SQUARE".toList then some 1
  else if cs = "SAW".toList then some 2
  else none

/-- `operand := number | "-" number` (R82). -/
def operand? : List Char → Option Int
  | '-' :: cs => (number? cs).map fun (n : Nat) => -(n : Int)
  | cs => (number? cs).map fun (n : Nat) => (n : Int)

/-! ### Lines -/

/-- White space. -/
def isBlank (c : Char) : Bool := c = ' ' || c = '\t'

/-- A text without the white space around it. -/
def trimBlanks (cs : List Char) : List Char := ((cs.dropWhile isBlank).reverse.dropWhile isBlank).reverse

/-- A text cut at its commas. -/
def cutCommas : List Char → List (List Char)
  | [] => [[]]
  | c :: cs =>
    if c = ',' then [] :: cutCommas cs
    else match cutCommas cs with
      | [] => [[c]]
      | piece :: rest => (c :: piece) :: rest

/-- The mnemonic and the operands' texts of a line, its comment left out (R82). -/
def lineParts (line : List Char) : List Char × List (List Char) :=
  let body := trimBlanks (line.takeWhile fun c => c ≠ ';')
  let ops := trimBlanks (body.dropWhile fun c => !isBlank c)
  (body.takeWhile fun c => !isBlank c, if ops = [] then [] else (cutCommas ops).map trimBlanks)

/-! ### Operands that fit their field -/

/-- The low `n` bits of an operand that lies between two bounds: "An assembler refuses an operand that does not fit its
field" (R82). -/
def field? (n : Nat) (lo hi v : Int) : Option (BitVec n) :=
  if lo ≤ v ∧ v ≤ hi then some (BitVec.ofInt n v) else none

/-- The command of an operation and its operands, in the order R82 writes them. "It does not emit an illegal word." -/
def assembleOp? : Opcode → List Int → Option Instr
  | .nop, [] => some .nop
  | .freqInit, [] => some .freqInit
  | .freqRead, [i] => (field? 8 0 255 i).map .freqRead
  | .oscSetWave, [k, v] => (field? 2 0 2 k).bind fun k => (field? 2 0 2 v).map (.oscSetWave k)
  | .oscSetLevel, [k, v] => (field? 2 0 2 k).bind fun k => (field? 8 0 10 v).map (.oscSetLevel k)
  | .oscSetCent, [k, v] => (field? 2 0 2 k).bind fun k => (field? 8 (-100) 100 v).map (.oscSetCent k)
  | .oscSetSemi, [k, v] => (field? 2 0 2 k).bind fun k => (field? 8 (-128) 127 v).map (.oscSetSemi k)
  | .oscGetWave, [k] => (field? 2 0 2 k).map .oscGetWave
  | .oscGetLevel, [k] => (field? 2 0 2 k).map .oscGetLevel
  | .oscGetCent, [k] => (field? 2 0 2 k).map .oscGetCent
  | .oscGetSemi, [k] => (field? 2 0 2 k).map .oscGetSemi
  | .oscGetInc, [k, v] => (field? 2 0 2 k).bind fun k => (field? 8 0 255 v).map (.oscGetInc k)
  | .mixSetNote, [v] => (field? 8 0 255 v).map .mixSetNote
  | .mixFill, [v] => (field? 16 0 65535 v).map .mixFill
  | .mixGetNote, [] => some .mixGetNote
  | .mixGetActive, [] => some .mixGetActive
  | .mixGetScount, [] => some .mixGetScount
  | .midiByte, [v] => (field? 8 0 255 v).map .midiByte
  | .midiGetNote, [] => some .midiGetNote
  | .noteLatch, [] => some .noteLatch
  | .getStatus, [] => some .getStatus
  | _, _ => none

/-- The mnemonic of an operation (R76). -/
def mnemonicOf : Opcode → String
  | .nop => "NOP"
  | .freqInit => "FREQ_INIT"
  | .freqRead => "FREQ_READ"
  | .oscSetWave => "OSC_SET_WAVE"
  | .oscSetLevel => "OSC_SET_LEVEL"
  | .oscSetCent => "OSC_SET_CENT"
  | .oscSetSemi => "OSC_SET_SEMI"
  | .oscGetWave => "OSC_GET_WAVE"
  | .oscGetLevel => "OSC_GET_LEVEL"
  | .oscGetCent => "OSC_GET_CENT"
  | .oscGetSemi => "OSC_GET_SEMI"
  | .oscGetInc => "OSC_GET_INC"
  | .mixSetNote => "MIX_SET_NOTE"
  | .mixFill => "MIX_FILL"
  | .mixGetNote => "MIX_GET_NOTE"
  | .mixGetActive => "MIX_GET_ACTIVE"
  | .mixGetScount => "MIX_GET_SCOUNT"
  | .midiByte => "MIDI_BYTE"
  | .midiGetNote => "MIDI_GET_NOTE"
  | .noteLatch => "NOTE_LATCH"
  | .getStatus => "GET_STATUS"

/-- The pseudo-instruction of a name and its operands (R83). -/
def assemblePseudo? (name : List Char) (args : List Int) : Option Pseudo :=
  match args with
  | [] =>
    if name = "SILENCE".toList then some .silence
    else if name = "OSC_DEFAULTS".toList then some .oscDefaults
    else none
  | [a] =>
    if name = "NOTE_OFF".toList then (field? 8 0 255 a).map .noteOff
    else if name = "OSC_OFF".toList then (field? 2 0 2 a).map .oscOff
    else if name = "PERIOD".toList then (field? 16 0 65535 a).map .period
    else none
  | [a, b] =>
    if name = "NOTE_ON".toList then (field? 8 0 255 a).bind fun n => (field? 8 0 255 b).map (.noteOn n)
    else none
  | _ => none

/-- The operation a mnemonic names. -/
def opcodeNamed? (name : List Char) : Option Opcode := Opcode.all.find? fun o => (mnemonicOf o).toList = name

/-- The operands' values; a wave code may be a name, in OSC_SET_WAVE's second place alone (R82). -/
def operandValues? (o : Option Opcode) (texts : List (List Char)) : Option (List Int) :=
  match o, texts with
  | some .oscSetWave, [k, v] => (operand? k).bind fun k => ((waveName? v).or (operand? v)).map fun v => [k, v]
  | _, _ => texts.mapM operand?

/-- The words of one line: a command (R82), a pseudo-instruction (R83), or a raw word written `.word` (R82). -/
def assembleLine (line : List Char) : Option (List Word) :=
  let parts := lineParts line
  let o := opcodeNamed? parts.1
  (operandValues? o parts.2).bind fun args =>
    match o with
    | some o => (assembleOp? o args).map fun i => [encode i]
    | none =>
      if parts.1 = ".word".toList then
        match args with
        | [v] => (field? 32 0 4294967295 v).map fun w => [w]
        | _ => none
      else (assemblePseudo? parts.1 args).map Pseudo.words

end Sys2Proof.Machine
end

