-- ==== Sys2Proof/Machine/HostSide.lean ====
section
/-!
DEFINITION. The host's side of the ports (spec/70_reset_and_hazards.md R264-R267): what the block's user must do. The block
checks none of it, and no meaning uses this file (log 10).
-/

namespace Sys2Proof.Machine

/-- P_HOST_BYTE_ORDER, which the spec leaves OPEN (spec/20_memory.md R51, decision D33): an argument here. -/
inductive ByteOrder where
  | littleEndian
  | bigEndian
  deriving DecidableEq, Repr

/-- The host's own parameters (spec/00_scope.md R6): P_BUF_N, which is OPEN (decision D41), and P_HOST_BYTE_ORDER. -/
structure HostParams where
  bufLen : Nat
  byteOrder : ByteOrder
  deriving DecidableEq, Repr

/-- "P_BUF_N must lie in 1..N_MAX_FILL" (R264). -/
abbrev HostParams.valid (h : HostParams) : Prop := 1 ≤ h.bufLen ∧ h.bufLen ≤ Config.maxFill

/-- The two bytes of a stored sample, the lower address first (R51). -/
def ByteOrder.sampleBytes (o : ByteOrder) (v : Half) : List Byte :=
  match o with
  | .littleEndian => [v.extractLsb' 0 8, v.extractLsb' 8 8]
  | .bigEndian => [v.extractLsb' 8 8, v.extractLsb' 0 8]

/-- A buffer's bytes after its samples are stored "in order ... sample 0 at index 0" (R264). -/
def HostParams.bufferBytes (h : HostParams) (vs : List Half) : List Byte := vs.flatMap h.byteOrder.sampleBytes

/-- MIDI intake: one MIDI_BYTE per byte, in order, none dropped or repeated (R265). -/
def midiIntake (bytes : List Byte) : List Instr := bytes.map .midiByte

/-- A stream whose every MIX_FILL has the one length P_BUF_N (R264), and whose every fill comes after exactly one
NOTE_LATCH of its period (R266). `latched` says whether this period's latch has been issued. -/
def latchedStream (bufLen : Nat) : Bool → List Instr → Bool
  | _, [] => true
  | latched, .mixFill n :: rest => latched && (n.toNat == bufLen) && latchedStream bufLen false rest
  | latched, .noteLatch :: rest => !latched && latchedStream bufLen true rest
  | latched, _ :: rest => latchedStream bufLen latched rest

/-- A stream of a host that "drives the pitch directly with MIX_SET_NOTE instead" and "leaves the MIDI parser unused"
(R266), its fills of the one length (R264). -/
def directStream (bufLen : Nat) (is : List Instr) : Bool :=
  is.all fun i => match i with
    | .mixFill n => n.toNat == bufLen
    | .midiByte _ | .noteLatch => false
    | _ => true

/-- The host keeps its duties R264 and R266; "Both are legal" (R266). -/
def HostParams.conforms (h : HostParams) (is : List Instr) : Bool :=
  latchedStream h.bufLen false is || directStream h.bufLen is

end Sys2Proof.Machine
end

