-- ==== Sys2Proof/Safety.lean ====
section
/-!
DEFINITION. What holds of the block in every state a run can reach: the invariant that the statements use as a premise
where a rule speaks of registers that hold legal values. Every clause is a sentence of spec/10_state.md, spec/43_midi_parser.md or
spec/00_scope.md about what a register never holds.
-/

namespace Sys2Proof

/-! ### Kinds of command -/

/-- The read commands (R54, R84). -/
def Instr.isRead : Instr → Bool
  | .freqRead _ | .oscGetWave _ | .oscGetLevel _ | .oscGetCent _ | .oscGetSemi _ | .oscGetInc _ _
  | .mixGetNote | .mixGetActive | .mixGetScount | .midiGetNote | .getStatus => true
  | .nop | .freqInit | .oscSetWave _ _ | .oscSetLevel _ _ | .oscSetCent _ _ | .oscSetSemi _ _
  | .mixSetNote _ | .mixFill _ | .midiByte _ | .noteLatch => false

/-- OSC_SET_*. -/
def Instr.isOscSet : Instr → Bool
  | .oscSetWave _ _ | .oscSetLevel _ _ | .oscSetCent _ _ | .oscSetSemi _ _ => true
  | _ => false

/-- OSC_GET_*. -/
def Instr.isOscGet : Instr → Bool
  | .oscGetWave _ | .oscGetLevel _ | .oscGetCent _ | .oscGetSemi _ | .oscGetInc _ _ => true
  | _ => false

/-- MIX_FILL. -/
def Instr.isFill : Instr → Bool
  | .mixFill _ => true
  | _ => false

/-- MIDI_BYTE. -/
def Instr.isMidiByte : Instr → Bool
  | .midiByte _ => true
  | _ => false

/-- MIX_SET_NOTE. -/
def Instr.isSetNote : Instr → Bool
  | .mixSetNote _ => true
  | _ => false

/-- R64's list of commands that touch nothing of the tracker's: MIX_FILL, OSC_SET_*, OSC_GET_*, MIX_SET_NOTE, MIX_GET_*,
FREQ_READ and FREQ_INIT. -/
def Instr.apartFromMidi : Instr → Bool
  | .mixFill _ | .mixSetNote _ | .mixGetNote | .mixGetActive | .mixGetScount | .freqRead _ | .freqInit => true
  | i => i.isOscSet || i.isOscGet

end Sys2Proof

namespace Sys2Proof.Machine

/-! ### The invariant -/

/-- LEVEL "never holds 11..15" (R25); CENT "never holds -128..-101 or 101..127" (R26). -/
abbrev Osc.inRange (o : Osc) : Prop :=
  o.level.toNat ≤ 10 ∧ -100 ≤ o.cent.toInt ∧ o.cent.toInt ≤ 100

/-- Every slot holds legal values (R23-R27). -/
abbrev Arch.slotsInRange (a : Arch) : Prop := ∀ k : Fin 3, a.osc[k].inRange

/-- No counter exceeds ACT, and two nonzero counters are equal only at the saturated value (R196). -/
abbrev Arch.countersOrdered (a : Arch) : Prop :=
  (∀ i : Fin 128, a.ctr[i].toNat ≤ a.act.toNat) ∧
  ∀ i j : Fin 128, i ≠ j → a.ctr[i] = a.ctr[j] → a.ctr[i] = 0#32 ∨ a.ctr[i] = BitVec.allOnes 32

/-- While a velocity byte is awaited, MNOTE holds a captured byte, one of class OTHER (R35, R191). -/
abbrev Arch.captureHeld (a : Arch) : Prop :=
  a.mst = .onVel ∨ a.mst = .offVel → byteClass a.mnote = .other

/-- The invariant of the block. -/
structure State.Inv (s : State) : Prop where
  params : s.params.valid
  slots : s.arch.slotsInRange
  counters : s.arch.countersOrdered
  capture : s.arch.captureHeld

/-- A run over a stream of command words: the block takes exactly these words, one a step, and ends in `t` without a fault
or a refusal (spec/20_memory.md R56). -/
abbrev State.RunsTo (s : State) (ws : List Word) (t : State) : Prop :=
  Host.Core.run Sys2Proof.core ws.length { s with cmdPort := ws } = Host.Outcome.next t

end Sys2Proof.Machine
end

