-- ==== Sys2Proof/Certificates/Slice0/Obligations.lean ====
section
/-!
DEFINITION. The statements for the provers. `Sys2Proof.Said` holds the spec's own formulas, written a second time from the
rules and not from the model, so that a statement compares the two. What rests on a choice of the model names its log entry.
-/

namespace Sys2Proof.Said

open Sys2Proof.Machine

/-! ### Outcomes -/

/-- Executing the word `w` is `raise IllegalCommand(w)`: ERR becomes 1, the word is taken, and nothing else changes: no
other register, no response word, no sample word (R241). -/
def Raises (w : Word) : Prop :=
  ∀ (s : State) (rest : List Word), s.cmdPort = w :: rest →
    step s = .next { s with cmdPort := rest, arch := { s.arch with err := true } }

/-- The state after the exception alone (R241). -/
def errOnly (s : State) : State := { s with arch := { s.arch with err := true } }

/-- The state after one response word and nothing else (R38). -/
def answered (s : State) (v : Word) : State := { s with outPort := s.outPort ++ [.response v] }

/-- The state after sample words and nothing else (R39). -/
def emitted (s : State) (vs : List Half) : State := { s with outPort := s.outPort ++ vs.map .sample }

/-- The state after a change of one slot and nothing else. -/
def slotChanged (s : State) (k : Fin 3) (f : Osc → Osc) : State :=
  { s with arch := { s.arch with osc := s.arch.osc.set k.val (f s.arch.osc[k]) k.isLt } }

/-- Running a second command where the first one completes. -/
def thenExec (r : Result) (i : Instr) : Result :=
  match r with
  | .next t => exec i t
  | .fault f => .fault f
  | .refused f => .refused f

/-- The selector of a slot. -/
def sel (k : Fin 3) : SlotSel := BitVec.ofNat 2 k.val

/-- `k << 16` in a command word (R82). -/
def selBits (k : Fin 3) : Word := BitVec.ofNat 32 (k.val * 65536)

/-! ### Arithmetic (R9, R101, R104, R130-R139) -/

/-- `tdiv(a, b) = sign(a) * floor(|a| / |b|)` (R9). -/
def tdiv (a : Int) (b : Nat) : Int := a.sign * ((a.natAbs / b : Nat) : Int)

/-- R108's mantissas, by pitch class. -/
def mantissas : List Nat :=
  [0x84D, 0x9BF, 0xB47, 0xCE6, 0xE9E, 0x038, 0x12F, 0x234, 0x349, 0x46F, 0x5A6, 0x6F0]

/-- `Dec(ROM[i])`, from R108's mantissa and exponent and R101's formula. -/
def romInc (i : Nat) : Nat := (4096 + mantissas.getD (i % 12) 0) * 2 ^ ((i + 7) / 12 + 8)

/-- `FreqInc(e)` (R104). -/
def freqInc (e : Int) : Int := if 0 ≤ e ∧ e ≤ 127 then (romInc e.toNat : Int) else 0

/-- `Inc(k, note)` (R130), for a slot's SEMI and CENT. -/
def incOf (semi cent : Int) (note : Nat) : Int :=
  if note = 0 then 0
  else
    let e0 := (note : Int) + semi
    if cent = 0 then freqInc e0
    else
      let nb := freqInc (if cent > 0 then e0 + 1 else e0 - 1)
      freqInc e0 + tdiv ((nb - freqInc e0) * (cent.natAbs : Int)) 100

/-- `Inc` of a slot. -/
def slotInc (o : Osc) (note : Nat) : Int := incOf o.semi.toInt o.cent.toInt note

/-- `ActiveCount()`: the number of slots whose waveform is not None (R161). -/
def activeCount (a : Arch) : Nat := (Finset.univ.filter fun k : Fin 3 => a.osc[k].wave ≠ Wave.none).card

/-- `Peak` (R134). -/
def peak (maxAmplitude level c : Nat) : Nat := maxAmplitude * level / (10 * c)

/-- `Contrib` of a slot at absolute index `n`, by the waveform's rule (R133, R135-R137, R139). -/
def contrib (p : Params) (o : Osc) (inc n c : Nat) : Nat :=
  match o.wave with
  | .none => 0
  | .square => if n * inc % 2 ^ 32 > 2 ^ 31 then peak p.maxAmplitude.toNat o.level.toNat c else 0
  | .sawtooth => peak p.maxAmplitude.toNat o.level.toNat c * (n * inc % 2 ^ 32) / 2 ^ 32

/-- `Sample(n)` with the note and the slots of `a` (R162, R163). -/
def sample (p : Params) (a : Arch) (n : Nat) : Nat :=
  contrib p a.osc[0] (slotInc a.osc[0] a.curNote.toNat).toNat n (activeCount a)
    + contrib p a.osc[1] (slotInc a.osc[1] a.curNote.toNat).toNat n (activeCount a)
    + contrib p a.osc[2] (slotInc a.osc[2] a.curNote.toNat).toNat n (activeCount a)

/-- A slot's contribution at a given phase, for the accumulator form of R133. -/
def contribAt (p : Params) (o : Osc) (c : Nat) (phase : Word) : Nat :=
  match o.wave with
  | .none => 0
  | .square => if phase.toNat > 2 ^ 31 then peak p.maxAmplitude.toNat o.level.toNat c else 0
  | .sawtooth => peak p.maxAmplitude.toNat o.level.toNat c * phase.toNat / 2 ^ 32

/-- A fill by three phase-accumulator registers: each sample is made from the registers, and each register then takes
`A <- (A + inc) mod 2^32` (R133). -/
def accumulatorFill (p : Params) (osc : Vector Osc 3) (c : Nat) (incs : Vector Word 3) : Vector Word 3 → Nat → List Half
  | _, 0 => []
  | acc, n + 1 =>
    BitVec.ofNat 16 (contribAt p osc[0] c acc[0] + contribAt p osc[1] c acc[1] + contribAt p osc[2] c acc[2])
      :: accumulatorFill p osc c incs #v[acc[0] + incs[0], acc[1] + incs[1], acc[2] + incs[2]] n

/-! ### The parser (R190-R197) -/

/-- Class RT of R190. -/
abbrev isRealTime (b : Byte) : Prop := b.toNat = 0xFE ∨ b.toNat = 0xFF

/-- Class ON of R190. -/
abbrev isOn (b : Byte) : Prop := 0x90 ≤ b.toNat ∧ b.toNat ≤ 0x9F

/-- Class OFF of R190. -/
abbrev isOff (b : Byte) : Prop := 0x80 ≤ b.toNat ∧ b.toNat ≤ 0x8F

/-- Class OTHER of R190: 0x00..0x7F and 0xA0..0xFD. -/
abbrev isOther (b : Byte) : Prop := b.toNat ≤ 0x7F ∨ (0xA0 ≤ b.toNat ∧ b.toNat ≤ 0xFD)

/-- `NoteOn(n, v)` (R193, with R195 and R196). -/
def noteOn (a : Arch) (n v : Byte) : Arch :=
  if h : n.toNat < 128 then
    if v = 0#8 then { a with ctr := a.ctr.set n.toNat 0#32 h }
    else
      let act := BitVec.ofNat 32 (min (a.act.toNat + 1) (2 ^ 32 - 1))
      { a with act := act, ctr := a.ctr.set n.toNat act h }
  else a

/-- `NoteOff(n)` (R194, with R195). -/
def noteOff (a : Arch) (n : Byte) : Arch :=
  if h : n.toNat < 128 then { a with ctr := a.ctr.set n.toNat 0#32 h } else a

/-- The tracker's four pieces of state agree (R63's first row). -/
def sameTracker (a b : Arch) : Prop := a.ctr = b.ctr ∧ a.act = b.act ∧ a.mst = b.mst ∧ a.mnote = b.mnote

/-- A record with its tracker replaced by another record's. -/
def withTrackerOf (a b : Arch) : Arch := { a with ctr := b.ctr, act := b.act, mst := b.mst, mnote := b.mnote }

/-- An outcome's next state with its record changed. -/
def mapArch (f : Arch → Arch) (r : Result) : Result :=
  match r with
  | .next t => .next { t with arch := f t.arch }
  | .fault e => .fault e
  | .refused e => .refused e

/-! ### The assembler (R82) -/

/-- R82's table, by row: the base word, whether a slot comes first, and the operand's least and greatest value with the
modulus of its field. -/
def row : Opcode → Int × Bool × Option (Int × Int × Int)
  | .nop => (0x00000000, false, none)
  | .freqInit => (0x01000000, false, none)
  | .freqRead => (0x02000000, false, some (0, 255, 256))
  | .oscSetWave => (0x10000000, true, some (0, 2, 256))
  | .oscSetLevel => (0x11000000, true, some (0, 10, 256))
  | .oscSetCent => (0x12000000, true, some (-100, 100, 256))
  | .oscSetSemi => (0x13000000, true, some (-128, 127, 256))
  | .oscGetWave => (0x18000000, true, none)
  | .oscGetLevel => (0x19000000, true, none)
  | .oscGetCent => (0x1A000000, true, none)
  | .oscGetSemi => (0x1B000000, true, none)
  | .oscGetInc => (0x1C000000, true, some (0, 255, 256))
  | .mixSetNote => (0x20000000, false, some (0, 255, 256))
  | .mixFill => (0x21000000, false, some (0, 65535, 65536))
  | .mixGetNote => (0x28000000, false, none)
  | .mixGetActive => (0x29000000, false, none)
  | .mixGetScount => (0x2A000000, false, none)
  | .midiByte => (0x30000000, false, some (0, 255, 256))
  | .midiGetNote => (0x38000000, false, none)
  | .noteLatch => (0x40000000, false, none)
  | .getStatus => (0x48000000, false, none)

/-- The encoding column of R82; none for an operand that does not fit its field, and for a wrong number of operands. -/
def assembled (o : Opcode) (args : List Int) : Option Word :=
  match row o, args with
  | (base, false, none), [] => some (BitVec.ofInt 32 base)
  | (base, false, some (lo, hi, m)), [v] => if lo ≤ v ∧ v ≤ hi then some (BitVec.ofInt 32 (base + v % m)) else none
  | (base, true, none), [k] => if 0 ≤ k ∧ k ≤ 2 then some (BitVec.ofInt 32 (base + k * 65536)) else none
  | (base, true, some (lo, hi, m)), [k, v] =>
    if (0 ≤ k ∧ k ≤ 2) ∧ lo ≤ v ∧ v ≤ hi then some (BitVec.ofInt 32 (base + k * 65536 + v % m)) else none
  | _, _ => none

/-- The value of a digit. -/
def digitOf (c : Char) : Nat :=
  if c ≤ '9' then c.toNat - 48 else if c ≤ 'F' then c.toNat - 55 else c.toNat - 87

/-- The value of a string of digits, the first one the most significant. -/
def valueOf (base : Nat) (cs : List Char) : Nat := cs.foldl (fun n c => base * n + digitOf c) 0

/-- `number := decimal digits | "0x" hex digits`, with its value. -/
def SpellsNumber (cs : List Char) (n : Nat) : Prop :=
  (cs ≠ [] ∧ (∀ c ∈ cs, '0' ≤ c ∧ c ≤ '9') ∧ n = valueOf 10 cs) ∨
  ∃ ds, cs = '0' :: 'x' :: ds ∧ ds ≠ [] ∧
    (∀ c ∈ ds, ('0' ≤ c ∧ c ≤ '9') ∨ ('A' ≤ c ∧ c ≤ 'F') ∨ ('a' ≤ c ∧ c ≤ 'f')) ∧ n = valueOf 16 ds

/-- `operand := number | "-" number`, with its value. -/
def Spells (cs : List Char) (v : Int) : Prop :=
  (∃ n : Nat, SpellsNumber cs n ∧ v = n) ∨ ∃ (ds : List Char) (n : Nat), cs = '-' :: ds ∧ SpellsNumber ds n ∧ v = -(n : Int)

/-- The operand texts of a line, a comma and a space between two of them. -/
def operandsText : List (List Char) → List Char
  | [] => []
  | [t] => t
  | t :: u :: rest => t ++ ',' :: ' ' :: operandsText (u :: rest)

/-- A line as R82's table and examples write it: the mnemonic, a space, the operands. -/
def lineText (name : List Char) (texts : List (List Char)) : List Char :=
  if texts = [] then name else name ++ ' ' :: operandsText texts

/-- A text that stands alone in a line: not empty, without white space, comma and semicolon. -/
def isPlain (cs : List Char) : Prop := cs ≠ [] ∧ ∀ c ∈ cs, c ∉ [' ', '\t', ',', ';']

/-- What may stand at the end of a line: nothing, or a comment. -/
def isComment (cs : List Char) : Prop := cs = [] ∨ ∃ rest, cs = ';' :: rest

/-- The mnemonics of R82's table. -/
def mnemonic : Opcode → String
  | .nop => "NOP" | .freqInit => "FREQ_INIT" | .freqRead => "FREQ_READ"
  | .oscSetWave => "OSC_SET_WAVE" | .oscSetLevel => "OSC_SET_LEVEL" | .oscSetCent => "OSC_SET_CENT"
  | .oscSetSemi => "OSC_SET_SEMI" | .oscGetWave => "OSC_GET_WAVE" | .oscGetLevel => "OSC_GET_LEVEL"
  | .oscGetCent => "OSC_GET_CENT" | .oscGetSemi => "OSC_GET_SEMI" | .oscGetInc => "OSC_GET_INC"
  | .mixSetNote => "MIX_SET_NOTE" | .mixFill => "MIX_FILL" | .mixGetNote => "MIX_GET_NOTE"
  | .mixGetActive => "MIX_GET_ACTIVE" | .mixGetScount => "MIX_GET_SCOUNT" | .midiByte => "MIDI_BYTE"
  | .midiGetNote => "MIDI_GET_NOTE" | .noteLatch => "NOTE_LATCH" | .getStatus => "GET_STATUS"

/-- The pseudo-instructions of R83's table, and R82's raw word. -/
def otherMnemonics : List String :=
  ["NOTE_ON", "NOTE_OFF", "SILENCE", "OSC_OFF", "PERIOD", "OSC_DEFAULTS", ".word"]

end Sys2Proof.Said

open Sys2Proof Sys2Proof.Machine

/-! ### The command word -/

/-- Decoding the word of a well-formed command gives the command, whatever its operands. -/
def Obligations.DecodeOfEncodeIsTheCommand : Prop :=
  ∀ i : Instr, i.wellFormed = true → decode (encode i) = .instr i

/-- A word that decodes is the word of what it decodes to: no bit of it is dropped, and the command is well formed. -/
def Obligations.EncodeOfDecodeIsTheWord : Prop :=
  ∀ (w : Word) (i : Instr), decode w = .instr i → i.wellFormed = true ∧ encode i = w

/-- R77: the decoder accepts exactly the words of which `Legal` holds, and executing any other word is IllegalCommand. -/
def Obligations.DecoderAcceptsExactlyTheLegalWords : Prop :=
  (∀ w : Word, (∃ i, decode w = .instr i) ↔ legal w) ∧ ∀ w : Word, ¬legal w → Said.Raises w

/-- R76's table: a word decodes to a command of a row exactly when it has the row's form under the row's mask and its
operand values meet the row's conditions. -/
def Obligations.OpcodeRowsMatchUnderTheirMasks : Prop :=
  ∀ (w : Word) (o : Opcode),
    (∃ i, decode w = .instr i ∧ i.opcode = o) ↔
      (w &&& o.maskWord = o.matchWord ∧ (o.toInstr (kField w) (immField w)).wellFormed = true)

/-- R71: 21 of the 256 values of OP are assigned, 235 are not, and a word with an unassigned one is illegal. -/
def Obligations.UnassignedOperationCodesAreIllegal : Prop :=
  ((List.range 256).countP fun c => (Opcode.ofCode? (BitVec.ofNat 8 c)).isSome) = 21 ∧
  ((List.range 256).countP fun c => (Opcode.ofCode? (BitVec.ofNat 8 c)).isNone) = 235 ∧
  ∀ w : Word, Opcode.ofCode? (opField w) = none → Said.Raises w

/-- Words written out from R82's and R76's encodings, one or more of each family, decode to the commands they stand for, and
two words that R240 makes illegal are rejected, under the names the model gives the rows of R240's table (the names are the
model's own reading, log 7; the machine records none). -/
def Obligations.WrittenOutWordsDecode : Prop :=
  decode 0x00000000#32 = .instr .nop ∧
  decode 0x01000000#32 = .instr .freqInit ∧
  decode 0x0200003C#32 = .instr (.freqRead 60#8) ∧
  decode 0x10020002#32 = .instr (.oscSetWave 2#2 2#2) ∧
  decode 0x120200F8#32 = .instr (.oscSetCent 2#2 (BitVec.ofInt 8 (-8))) ∧
  decode 0x130100F4#32 = .instr (.oscSetSemi 1#2 (BitVec.ofInt 8 (-12))) ∧
  decode 0x1C01003C#32 = .instr (.oscGetInc 1#2 60#8) ∧
  decode 0x200000C8#32 = .instr (.mixSetNote 200#8) ∧
  decode 0x2100FFFF#32 = .instr (.mixFill 65535#16) ∧
  decode 0x30000090#32 = .instr (.midiByte 0x90#8) ∧
  decode 0x40000000#32 = .instr .noteLatch ∧
  decode 0x48000000#32 = .instr .getStatus ∧
  decode 0x1200FFF8#32 = .reject .immNonzero ∧
  decode 0x18030000#32 = .reject .slotThree

/-- R83: the expansion of each pseudo-instruction, as command words, for every operand. -/
def Obligations.PseudoInstructionsExpand : Prop :=
  (∀ n v : Byte, (Pseudo.noteOn n v).words = [0x30000090#32, 0x30000000#32 + n.setWidth 32, 0x30000000#32 + v.setWidth 32]) ∧
  (∀ n : Byte, (Pseudo.noteOff n).words = [0x30000080#32, 0x30000000#32 + n.setWidth 32, 0x30000000#32]) ∧
  Pseudo.silence.words = [0x20000000#32] ∧
  (∀ k : Fin 3, (Pseudo.oscOff (Said.sel k)).words = [0x10000000#32 + Said.selBits k]) ∧
  (∀ n : Half, (Pseudo.period n).words = [0x40000000#32, 0x21000000#32 + n.setWidth 32]) ∧
  Pseudo.oscDefaults.words =
    [0x10000001#32, 0x1100000A#32, 0x13000000#32, 0x10010001#32, 0x1101000A#32, 0x13010000#32,
     0x10020001#32, 0x1102000A#32, 0x13020000#32, 0x12000000#32, 0x12010008#32, 0x120200F8#32]

/-- R82's encoding column and refusal: for every operation and every list of operand values, the assembler emits the row's
base word plus (k << 16) plus the operand taken modulo its field where the number of operands is the row's and every operand
fits, and refuses every other list; the command is the operation's own and its word is legal; and every well-formed command
can be written. -/
def Obligations.AssemblerWritesExactlyTheLegalCommands : Prop :=
  (∀ (o : Opcode) (args : List Int), (assembleOp? o args).map encode = Said.assembled o args) ∧
  (∀ (o : Opcode) (args : List Int) (i : Instr), assembleOp? o args = some i → i.opcode = o ∧ legal (encode i)) ∧
  ∀ i : Instr, i.wellFormed = true → ∃ args, assembleOp? i.opcode args = some i

/-! ### The step -/

/-- When the oldest word on the command port decodes, a step takes it and runs its command on what remains; a step with
no word waiting leaves the state as it is (the waiting step is the model's choice, log 1). -/
def Obligations.StepRunsTheDecodedCommand : Prop :=
  (∀ (s : State) (w : Word) (rest : List Word) (i : Instr), s.cmdPort = w :: rest → decode w = .instr i →
    step s = exec i { s with cmdPort := rest }) ∧
  ∀ s : State, s.cmdPort = [] → step s = .next s

/-- R241: an illegal word, and equally a command with an illegal operand value, sets ERR and does nothing else; execution
continues with the next command. -/
def Obligations.IllegalCommandOnlySetsErr : Prop :=
  (∀ (w : Word) (r : Reject), decode w = .reject r → Said.Raises w) ∧
  ∀ (i : Instr) (s : State), i.wellFormed = false → exec i s = .next (Said.errOnly s)

/-- R240's causes, each for every word of its kind, and the code 1 that GET_STATUS then reports. -/
def Obligations.EveryCauseRaisesIllegalCommand : Prop :=
  (∀ w, opField w ∉ assignedOps → Said.Raises w) ∧
  (∀ w, resField w ≠ 0#6 → Said.Raises w) ∧
  (∀ w, opField w ∈ slotOps → kField w = 3#2 → Said.Raises w) ∧
  (∀ w, opField w ∉ slotOps → kField w ≠ 0#2 → Said.Raises w) ∧
  (∀ w, immField w &&& ~~~usedMaskOfOp (opField w) ≠ 0#16 → Said.Raises w) ∧
  (∀ w, opField w = 0x10#8 → w.extractLsb' 0 2 = 3#2 → Said.Raises w) ∧
  (∀ w, opField w = 0x11#8 → 11 ≤ (w.extractLsb' 0 8).toNat → Said.Raises w) ∧
  (∀ w, opField w = 0x12#8 → ((w.extractLsb' 0 8).toInt < -100 ∨ 100 < (w.extractLsb' 0 8).toInt) → Said.Raises w) ∧
  ∀ s : State, exec .getStatus (Said.errOnly s) = .next (Said.answered (Said.errOnly s) 1#32)

/-- No state stops the block: a step from any state answers a next state (no fault, no refusal). -/
def Obligations.EveryStepCompletes : Prop :=
  ∀ s : State, ∃ t : State, step s = .next t

/-- The block is a fold over its command stream: the words ahead determine what happens whatever words wait behind them,
and a stream cut in two runs as its two parts one after the other. -/
def Obligations.CommandStreamRunsInOrder : Prop :=
  ∀ (us vs : List Word) (s : State), ∃ t : State,
    s.RunsTo us t ∧
    Host.Core.run Sys2Proof.core us.length { s with cmdPort := us ++ vs } = .next { t with cmdPort := vs } ∧
    ∀ u : State, s.RunsTo (us ++ vs) u ↔ t.RunsTo vs u

/-! ### Reset -/

/-- R260: what every field holds after reset, at power-on and after any loss of power. -/
def Obligations.ResetGivesEveryFieldItsValue : Prop :=
  (∀ s : State, s.powerCycle.arch = State.reset.arch ∧ s.powerCycle.outPort = []) ∧
  State.reset.arch.osc[0] = { wave := .square, level := 10#4, cent := 0#8, semi := 0#8 } ∧
  State.reset.arch.osc[1] = { wave := .square, level := 10#4, cent := 8#8, semi := 0#8 } ∧
  State.reset.arch.osc[2] = { wave := .square, level := 10#4, cent := BitVec.ofInt 8 (-8), semi := 0#8 } ∧
  State.reset.arch.curNote = 0#7 ∧
  State.reset.arch.scount = 0#32 ∧
  (∀ i : Fin 128, State.reset.arch.ctr[i] = 0#32) ∧
  State.reset.arch.act = 0#32 ∧
  State.reset.arch.mst = .idle ∧
  State.reset.arch.mnote = 0#8 ∧
  State.reset.arch.err = false ∧
  State.reset.cmdPort = [] ∧
  State.reset.outPort = []

/-- The invariant of Safety.lean holds after reset, with every admitted value of the parameter. -/
def Obligations.ResetMeetsTheInvariant : Prop :=
  State.reset.Inv ∧ ∀ (n : Nat) (p : Params), Params.ofAmplitude? n = some p → (State.resetWith p).Inv

/-- From every state that meets the invariant, a step gives a state that meets it: registers stay legal, no counter
exceeds ACT, equal nonzero counters are saturated, and an awaited velocity has a captured note byte. -/
def Obligations.StepKeepsTheInvariant : Prop :=
  ∀ s t : State, s.Inv → step s = .next t → t.Inv

/-- A block asked for with a parameter outside 1..65535 is refused, one inside is built with it and with the reset record, no
state at all holds another, and State.reset holds 65535. -/
def Obligations.AmplitudeOutsideItsRangeIsRejected : Prop :=
  (∀ n : Nat, n = 0 ∨ 65535 < n → Params.ofAmplitude? n = none ∧ State.ofAmplitude? n = none) ∧
  (∀ n : Nat, 1 ≤ n → n ≤ 65535 → ∃ p, Params.ofAmplitude? n = some p ∧ p.maxAmplitude.toNat = n ∧ p.valid ∧
    State.ofAmplitude? n = some { State.reset with params := p }) ∧
  (∀ s : State, 1 ≤ s.params.maxAmplitude.toNat ∧ s.params.maxAmplitude.toNat ≤ 65535) ∧
  State.reset.params.maxAmplitude = 65535#16

/-! ### Who writes and who reads what -/

/-- The "written by" column of R63's table, and that no command writes the parameter (R37) or the waiting commands. -/
def Obligations.OnlyTheNamedCommandsWriteEachRegister : Prop :=
  ∀ (i : Instr) (s t : State), exec i s = .next t →
    (i.isMidiByte = false → Said.sameTracker t.arch s.arch) ∧
    (i.isOscSet = false → t.arch.osc = s.arch.osc) ∧
    (i.isSetNote = false → i ≠ .noteLatch → t.arch.curNote = s.arch.curNote) ∧
    (i.isFill = false → t.arch.scount = s.arch.scount) ∧
    (i.wellFormed = true → t.arch.err = s.arch.err) ∧
    t.params = s.params ∧ t.cmdPort = s.cmdPort

/-- The "read by" column of R63's table, as noninterference: a command that does not read a piece of state gives the same
outputs and the same changes elsewhere whatever that piece holds. -/
def Obligations.OnlyTheNamedCommandsReadEachRegister : Prop :=
  (∀ (i : Instr) (s : State) (b : Arch), i.isMidiByte = false → i ≠ .midiGetNote → i ≠ .noteLatch →
    exec i { s with arch := Said.withTrackerOf s.arch b } = Said.mapArch (Said.withTrackerOf · b) (exec i s)) ∧
  (∀ (i : Instr) (s : State) (v : Vector Osc 3),
    i.isOscSet = false → i.isOscGet = false → i ≠ .mixGetActive → i.isFill = false →
    exec i { s with arch := { s.arch with osc := v } } =
      Said.mapArch (fun a => { a with osc := v }) (exec i s)) ∧
  (∀ (i : Instr) (s : State) (n : BitVec 7),
    i.isSetNote = false → i ≠ .noteLatch → i ≠ .mixGetNote → i.isFill = false →
    exec i { s with arch := { s.arch with curNote := n } } =
      Said.mapArch (fun a => { a with curNote := n }) (exec i s)) ∧
  (∀ (i : Instr) (s : State) (n : Word), i.isFill = false → i ≠ .mixGetScount →
    exec i { s with arch := { s.arch with scount := n } } =
      Said.mapArch (fun a => { a with scount := n }) (exec i s)) ∧
  (∀ (i : Instr) (s : State) (e : Bool), i.wellFormed = true → i ≠ .getStatus →
    exec i { s with arch := { s.arch with err := e } } =
      Said.mapArch (fun a => { a with err := e }) (exec i s))

/-- R22: a step leaves ERR set exactly when it was set or the word taken is illegal; so no command clears it, no legal
command writes it, and only reset gives 0. -/
def Obligations.ErrIsStickyAndOnlyIllegalWordsSetIt : Prop :=
  State.reset.arch.err = false ∧
  (∀ s t : State, step s = .next t →
    (t.arch.err = true ↔ s.arch.err = true ∨ ∃ w rest, s.cmdPort = w :: rest ∧ ¬legal w)) ∧
  ∀ s : State, exec .getStatus s = .next (Said.answered s (if s.arch.err then 1#32 else 0#32))

/-- R38 and R39: what each legal command puts on the ports. A read puts exactly one word on the response port, a MIX_FILL
of length N exactly N words on the sample port, every other command and every illegal word nothing; what was put before
stays before. -/
def Obligations.PortsCarryExactlyTheWordsTheRulesGive : Prop :=
  (∀ (i : Instr) (s : State), i.wellFormed = true → ∃ t, exec i s = .next t ∧
    (i.isRead = true → ∃ v, t.outPort = s.outPort ++ [.response v]) ∧
    (∀ n, i = .mixFill n → ∃ vs : List Half, vs.length = n.toNat ∧ t.outPort = s.outPort ++ vs.map .sample) ∧
    (i.isRead = false → i.isFill = false → t.outPort = s.outPort)) ∧
  ∀ (w : Word) (s t : State) (rest : List Word), ¬legal w → s.cmdPort = w :: rest → step s = .next t →
    t.outPort = s.outPort

/-- A MIDI_BYTE and a command of R64's list give the same state and the same outputs in either order; with NOTE_LATCH and
MIDI_GET_NOTE the order can be seen. -/
def Obligations.MidiBytesCommuteWithTheMixer : Prop :=
  (∀ (b : Byte) (i : Instr) (s : State), i.apartFromMidi = true →
    Said.thenExec (exec (.midiByte b) s) i = Said.thenExec (exec i s) (.midiByte b)) ∧
  (∃ (b : Byte) (s : State), Said.thenExec (exec (.midiByte b) s) .noteLatch ≠
    Said.thenExec (exec .noteLatch s) (.midiByte b)) ∧
  ∃ (b : Byte) (s : State), Said.thenExec (exec (.midiByte b) s) .midiGetNote ≠
    Said.thenExec (exec .midiGetNote s) (.midiByte b)

/-- Reads change no register and answer the same when repeated; FREQ_INIT changes nothing; the setting commands and
IllegalCommand leave the state as it is when repeated; a fill with a note set and a nonzero length does not, nor does a
byte that moves the parser. -/
def Obligations.ReadsAndSettingsAreIdempotent : Prop :=
  (∀ (i : Instr) (s : State), i.isRead = true → i.wellFormed = true →
    ∃ v, exec i s = .next (Said.answered s v) ∧
      exec i (Said.answered s v) = .next (Said.answered (Said.answered s v) v)) ∧
  (∀ s : State, exec .freqInit s = .next s) ∧
  (∀ (i : Instr) (s : State), (i.isOscSet = true ∨ i.isSetNote = true ∨ i = .noteLatch) →
    ∃ t, exec i s = .next t ∧ exec i t = .next t) ∧
  (∀ (i : Instr) (s : State), i.wellFormed = false → exec i (Said.errOnly s) = .next (Said.errOnly s)) ∧
  (∀ (n : Half) (s : State), s.arch.curNote ≠ 0#7 → n ≠ 0#16 →
    ∃ t u, exec (.mixFill n) s = .next t ∧ exec (.mixFill n) t = .next u ∧ t.arch ≠ s.arch ∧ u.arch ≠ t.arch) ∧
  ∃ (b : Byte) (s t u : State), exec (.midiByte b) s = .next t ∧ exec (.midiByte b) t = .next u ∧ u ≠ t

/-! ### The frequency ROM -/

/-- The 128 words of the ROM by R108's mantissas and exponents, and the doubling per octave. -/
def Obligations.RomHasTheTemperedStructure : Prop :=
  romWords.length = 128 ∧
  (∀ i < 128, ((rom i).extractLsb' 0 12).toNat = Said.mantissas.getD (i % 12) 0 ∧
    ((rom i).extractLsb' 12 4).toNat = (i + 7) / 12) ∧
  ∀ i < 116, dec (rom (i + 12)) = 2 * dec (rom i)

/-- R102: each word is what the generation gives, in exact real arithmetic: with x the increment of 440 * 2^((i-57)/12) Hz
at 44100 Hz, E = floor(log2 x) - 20 and m = x / 2^(E+8) rounded half up, which lies in 4096..8192 and is carried into the
exponent where it is 8192. -/
def Obligations.RomWordsAreTheRoundedTemperedIncrements : Prop :=
  ∀ i : ℕ, i < 128 →
    let x : ℝ := (Config.refHz : ℝ) * (2 : ℝ) ^ (((i : ℝ) - (Config.refNote : ℝ)) / 12) * 2 ^ 32 / (Config.sampleRate : ℝ)
    let e : ℤ := ⌊Real.logb 2 x⌋ - 20
    let m : ℤ := ⌊x / (2 : ℝ) ^ (e + 8) + 1 / 2⌋
    4096 ≤ m ∧ m ≤ 8192 ∧
    (((rom i).extractLsb' 12 4).toNat : ℤ) = (if m = 8192 then e + 1 else e) ∧
    (((rom i).extractLsb' 0 12).toNat : ℤ) = (if m = 8192 then 4096 else m) - 4096

/-- The decoded increment is within a relative 8.07e-5 of the exact one. -/
def Obligations.RomIncrementsAreAccurate : Prop :=
  ∀ i : ℕ, i < 128 →
    let x : ℝ := (Config.refHz : ℝ) * (2 : ℝ) ^ (((i : ℝ) - (Config.refNote : ℝ)) / 12) * 2 ^ 32 / (Config.sampleRate : ℝ)
    |((dec (rom i) : ℕ) : ℝ) - x| ≤ 8.07e-5 * x

/-- R104: the lookup for every signed index: the decoded ROM word inside 0..127, 0 outside; a value inside is nonzero and
fits 32 bits. -/
def Obligations.FrequencyLookupIsSilentOutsideTheTable : Prop :=
  (∀ e : Int, (freqInc e : Int) = Said.freqInc e) ∧
  (∀ e : Int, e < 0 ∨ 127 < e → freqInc e = 0) ∧
  ∀ e : Int, 0 ≤ e → e ≤ 127 → freqInc e = dec (rom e.toNat) ∧ 0 < freqInc e ∧ freqInc e < 2 ^ 32

/-- R107: FREQ_READ answers the raw ROM word, 0 for an index of 128 or more, and changes nothing. -/
def Obligations.FreqReadAnswersTheRomWord : Prop :=
  (∀ i : Byte, encode (.freqRead i) = 0x02000000#32 ||| i.setWidth 32) ∧
  (∀ (i : Byte) (s : State), i.toNat ≤ 127 →
    exec (.freqRead i) s = .next (Said.answered s ((rom i.toNat).setWidth 32))) ∧
  (∀ (i : Byte) (s : State), 128 ≤ i.toNat → exec (.freqRead i) s = .next (Said.answered s 0#32)) ∧
  ∀ w : Word, opField w = 0x02#8 → w.extractLsb' 8 16 ≠ 0#16 → Said.Raises w

/-- R106 and R220: FREQ_INIT and NOP are one word each, change nothing and answer nothing; any other word with their OP is
illegal. -/
def Obligations.NopAndFreqInitChangeNothing : Prop :=
  encode .nop = 0x00000000#32 ∧ encode .freqInit = 0x01000000#32 ∧
  (∀ s : State, exec .nop s = .next s) ∧ (∀ s : State, exec .freqInit s = .next s) ∧
  (∀ w : Word, opField w = 0x00#8 → w ≠ 0x00000000#32 → Said.Raises w) ∧
  ∀ w : Word, opField w = 0x01#8 → w ≠ 0x01000000#32 → Said.Raises w

/-! ### The oscillators -/

/-- R121: OSC_SET_WAVE stores codes 0, 1, 2 as None, Square, Sawtooth in the slot K names and changes nothing else; code 3
and K = 3 are illegal. -/
def Obligations.OscSetWaveStoresTheWaveform : Prop :=
  (∀ (k : Fin 3) (c : BitVec 2),
    encode (.oscSetWave (Said.sel k) c) = 0x10000000#32 ||| Said.selBits k ||| c.setWidth 32) ∧
  (∀ (k : Fin 3) (s : State),
    exec (.oscSetWave (Said.sel k) 0#2) s = .next (Said.slotChanged s k fun o => { o with wave := .none }) ∧
    exec (.oscSetWave (Said.sel k) 1#2) s = .next (Said.slotChanged s k fun o => { o with wave := .square }) ∧
    exec (.oscSetWave (Said.sel k) 2#2) s = .next (Said.slotChanged s k fun o => { o with wave := .sawtooth })) ∧
  (∀ (k : SlotSel) (c : BitVec 2) (s : State), k = 3#2 ∨ c = 3#2 →
    exec (.oscSetWave k c) s = .next (Said.errOnly s)) ∧
  ∀ w : Word, opField w = 0x10#8 →
    (resField w ≠ 0#6 ∨ kField w = 3#2 ∨ w.extractLsb' 2 14 ≠ 0#14 ∨ w.extractLsb' 0 2 = 3#2) → Said.Raises w

/-- R122: OSC_SET_LEVEL stores 0..10 and changes nothing else; 11..255 and K = 3 are illegal. -/
def Obligations.OscSetLevelStoresTheLevel : Prop :=
  (∀ (k : Fin 3) (v : Byte),
    encode (.oscSetLevel (Said.sel k) v) = 0x11000000#32 ||| Said.selBits k ||| v.setWidth 32) ∧
  (∀ (k : Fin 3) (n : Nat) (s : State), n ≤ 10 →
    exec (.oscSetLevel (Said.sel k) (BitVec.ofNat 8 n)) s =
      .next (Said.slotChanged s k fun o => { o with level := BitVec.ofNat 4 n })) ∧
  (∀ (k : SlotSel) (v : Byte) (s : State), k = 3#2 ∨ 11 ≤ v.toNat →
    exec (.oscSetLevel k v) s = .next (Said.errOnly s)) ∧
  ∀ w : Word, opField w = 0x11#8 →
    (resField w ≠ 0#6 ∨ kField w = 3#2 ∨ w.extractLsb' 8 8 ≠ 0#8 ∨ 11 ≤ (w.extractLsb' 0 8).toNat) → Said.Raises w

/-- R123: OSC_SET_CENT stores -100..100 as two's complement and changes nothing else; the bytes 0x65..0x9B and K = 3 are
illegal. -/
def Obligations.OscSetCentStoresTheCent : Prop :=
  (∀ (k : Fin 3) (v : Byte),
    encode (.oscSetCent (Said.sel k) v) = 0x12000000#32 ||| Said.selBits k ||| v.setWidth 32) ∧
  (∀ (k : Fin 3) (c : Int) (s : State), -100 ≤ c → c ≤ 100 →
    exec (.oscSetCent (Said.sel k) (BitVec.ofInt 8 c)) s =
      .next (Said.slotChanged s k fun o => { o with cent := BitVec.ofInt 8 c })) ∧
  (∀ (k : SlotSel) (v : Byte) (s : State), (k = 3#2 ∨ (0x65 ≤ v.toNat ∧ v.toNat ≤ 0x9B)) →
    exec (.oscSetCent k v) s = .next (Said.errOnly s)) ∧
  ∀ w : Word, opField w = 0x12#8 →
    (resField w ≠ 0#6 ∨ kField w = 3#2 ∨ w.extractLsb' 8 8 ≠ 0#8 ∨
      (0x65 ≤ (w.extractLsb' 0 8).toNat ∧ (w.extractLsb' 0 8).toNat ≤ 0x9B)) → Said.Raises w

/-- R124: OSC_SET_SEMI stores every semitone -128..127 and changes nothing else; only K = 3 (or a reserved bit) is
illegal. -/
def Obligations.OscSetSemiStoresTheSemitone : Prop :=
  (∀ (k : Fin 3) (v : Byte),
    encode (.oscSetSemi (Said.sel k) v) = 0x13000000#32 ||| Said.selBits k ||| v.setWidth 32) ∧
  (∀ (k : Fin 3) (n : Int) (s : State), -128 ≤ n → n ≤ 127 →
    exec (.oscSetSemi (Said.sel k) (BitVec.ofInt 8 n)) s =
      .next (Said.slotChanged s k fun o => { o with semi := BitVec.ofInt 8 n })) ∧
  (∀ (v : Byte) (s : State), exec (.oscSetSemi 3#2 v) s = .next (Said.errOnly s)) ∧
  ∀ w : Word, opField w = 0x13#8 →
    (resField w ≠ 0#6 ∨ kField w = 3#2 ∨ w.extractLsb' 8 8 ≠ 0#8) → Said.Raises w

/-- R125 to R128: the four accessors answer their slot's field, unsigned fields zero-extended and signed ones
sign-extended, and change nothing; K = 3 is illegal. -/
def Obligations.OscGetAnswersTheField : Prop :=
  (∀ k : Fin 3, encode (.oscGetWave (Said.sel k)) = 0x18000000#32 ||| Said.selBits k ∧
    encode (.oscGetLevel (Said.sel k)) = 0x19000000#32 ||| Said.selBits k ∧
    encode (.oscGetCent (Said.sel k)) = 0x1A000000#32 ||| Said.selBits k ∧
    encode (.oscGetSemi (Said.sel k)) = 0x1B000000#32 ||| Said.selBits k) ∧
  (∀ (k : Fin 3) (s : State),
    exec (.oscGetWave (Said.sel k)) s = .next (Said.answered s
      (match s.arch.osc[k].wave with | .none => 0#32 | .square => 1#32 | .sawtooth => 2#32)) ∧
    exec (.oscGetLevel (Said.sel k)) s = .next (Said.answered s (BitVec.ofNat 32 s.arch.osc[k].level.toNat)) ∧
    exec (.oscGetCent (Said.sel k)) s = .next (Said.answered s (BitVec.ofInt 32 s.arch.osc[k].cent.toInt)) ∧
    exec (.oscGetSemi (Said.sel k)) s = .next (Said.answered s (BitVec.ofInt 32 s.arch.osc[k].semi.toInt))) ∧
  (∀ s : State, exec (.oscGetWave 3#2) s = .next (Said.errOnly s) ∧ exec (.oscGetLevel 3#2) s = .next (Said.errOnly s) ∧
    exec (.oscGetCent 3#2) s = .next (Said.errOnly s) ∧ exec (.oscGetSemi 3#2) s = .next (Said.errOnly s)) ∧
  ∀ w : Word, opField w ∈ [0x18#8, 0x19#8, 0x1A#8, 0x1B#8] →
    (resField w ≠ 0#6 ∨ kField w = 3#2 ∨ immField w ≠ 0#16) → Said.Raises w

/-- R129, R130, R132: OSC_GET_INC answers Inc(k, note) for every note 0..255, not clamped, and changes nothing; note 0 gives
0 whatever the parameters; K = 3 is illegal. For a slot whose CENT is outside -100..100, which no run reaches, the spec gives no
result: there the formula is followed as it is written and narrowed to 32 bits (the model's choice, log 6). -/
def Obligations.OscGetIncAnswersTheIncrement : Prop :=
  (∀ (k : Fin 3) (n : Byte),
    encode (.oscGetInc (Said.sel k) n) = 0x1C000000#32 ||| Said.selBits k ||| n.setWidth 32) ∧
  (∀ (k : Fin 3) (n : Byte) (s : State),
    exec (.oscGetInc (Said.sel k) n) s =
      .next (Said.answered s (BitVec.ofInt 32 (Said.slotInc s.arch.osc[k] n.toNat)))) ∧
  (∀ (k : Fin 3) (s : State), exec (.oscGetInc (Said.sel k) 0#8) s = .next (Said.answered s 0#32)) ∧
  (∀ (n : Byte) (s : State), exec (.oscGetInc 3#2 n) s = .next (Said.errOnly s)) ∧
  ∀ w : Word, opField w = 0x1C#8 →
    (resField w ≠ 0#6 ∨ kField w = 3#2 ∨ w.extractLsb' 8 8 ≠ 0#8) → Said.Raises w

/-- For a slot that holds legal values, Inc lies between the base and the neighbour's increment, in 0..2^32-1, so the
32-bit word loses nothing; at ±100 cents it is the neighbour's own. -/
def Obligations.IncrementLiesBetweenTheTableEntries : Prop :=
  ∀ (o : Osc) (note : Nat), o.inRange → 1 ≤ note → note ≤ 255 →
    let e : Int := (note : Int) + o.semi.toInt
    let base := Said.freqInc e
    let nb := Said.freqInc (if o.cent.toInt > 0 then e + 1 else if o.cent.toInt < 0 then e - 1 else e)
    min base nb ≤ ((inc o note).toNat : Int) ∧ ((inc o note).toNat : Int) ≤ max base nb ∧
    ((inc o note).toNat : Int) = Said.slotInc o note ∧
    (o.cent.toInt = 100 ∨ o.cent.toInt = -100 → ((inc o note).toNat : Int) = nb)

/-- R134 to R137 and R139: a slot's contribution at every increment, index and count: nothing for None; for Square, Peak
while the phase is strictly above 2^31, else 0; for Sawtooth, (Peak * Phase) >> 32, which stays below Peak; always in
0..Peak; and 0 for an increment of 0. R134 gives Peak for a count of 1..3 and a LEVEL of 0..10; outside these, at a count of 0
(where Peak is 0), a count above 3 and a LEVEL of 11..15, the value is the model's choice (log 6). -/
def Obligations.ContributionFollowsTheWaveform : Prop :=
  ∀ (p : Params) (o : Osc) (i n : Word) (c : Nat),
    let ph := n.toNat * i.toNat % 2 ^ 32
    let pk := p.maxAmplitude.toNat * o.level.toNat / (10 * c)
    (o.wave = .none → contrib p o i n c = 0) ∧
    (o.wave = .square → contrib p o i n c = if ph > 2 ^ 31 then pk else 0) ∧
    (o.wave = .sawtooth → contrib p o i n c = pk * ph / 2 ^ 32 ∧ (0 < pk → contrib p o i n c < pk)) ∧
    contrib p o i n c ≤ pk ∧
    (i = 0#32 → contrib p o i n c = 0)

/-! ### The mixer -/

/-- R160: MIX_SET_NOTE stores min(note, 127) and changes nothing else. -/
def Obligations.MixSetNoteClampsTheNote : Prop :=
  (∀ n : Byte, encode (.mixSetNote n) = 0x20000000#32 ||| n.setWidth 32) ∧
  (∀ (n : Byte) (s : State), exec (.mixSetNote n) s =
    .next { s with arch := { s.arch with curNote := BitVec.ofNat 7 (min n.toNat 127) } }) ∧
  ∀ w : Word, opField w = 0x20#8 → w.extractLsb' 8 16 ≠ 0#16 → Said.Raises w

/-- R169: NOTE_LATCH copies the tracker's sounding note to the mixer and changes nothing else; the clamp never changes the
copied value. -/
def Obligations.NoteLatchCopiesTheSoundingNote : Prop :=
  encode .noteLatch = 0x40000000#32 ∧
  (∀ s : State, exec .noteLatch s =
      .next { s with arch := { s.arch with curNote := BitVec.ofNat 7 (min s.arch.sounding 127) } } ∧
    (BitVec.ofNat 7 (min s.arch.sounding 127)).toNat = s.arch.sounding) ∧
  ∀ w : Word, opField w = 0x40#8 → w ≠ 0x40000000#32 → Said.Raises w

/-- R165: with no note set, MIX_FILL puts N zeros on the sample port and leaves S and every register as they were. -/
def Obligations.SilentFillEmitsZerosAndKeepsTheCount : Prop :=
  ∀ (n : Half) (s : State), s.arch.curNote = 0#7 →
    exec (.mixFill n) s = .next (Said.emitted s (List.replicate n.toNat 0#16))

/-- R162, R163: with a note set, MIX_FILL puts N samples on the port, sample i being the sum of the three contributions at
index (S + i) mod 2^32, with the count and the increments of the start of the fill, and S advances by N modulo 2^32;
with none, it puts N zeros and S stays; nothing else changes. -/
def Obligations.FillEmitsTheMixedSamples : Prop :=
  (∀ n : Half, encode (.mixFill n) = 0x21000000#32 ||| n.setWidth 32) ∧
  (∀ (n : Half) (s : State), s.arch.slotsInRange → s.arch.curNote ≠ 0#7 →
    ∃ vs : List Half,
      exec (.mixFill n) s = .next { Said.emitted s vs with
        arch := { s.arch with scount := BitVec.ofNat 32 ((s.arch.scount.toNat + n.toNat) % 2 ^ 32) } } ∧
      vs.length = n.toNat ∧
      ∀ i (h : i < vs.length), vs[i].toNat = Said.sample s.params s.arch ((s.arch.scount.toNat + i) % 2 ^ 32)) ∧
  (∀ (n : Half) (s : State), s.arch.curNote = 0#7 →
    exec (.mixFill n) s = .next (Said.emitted s (List.replicate n.toNat 0#16))) ∧
  ∀ w : Word, opField w = 0x21#8 → w.extractLsb' 16 8 ≠ 0#8 → Said.Raises w

/-- With legal registers no sum of contributions exceeds P_MAX_AMPLITUDE, so no sample overflows its 16 bits. -/
def Obligations.SamplesNeverExceedTheMaximum : Prop :=
  ∀ (p : Params) (a : Arch) (incs : Vector Word 3) (n : Word), a.slotsInRange →
    sampleSum p a.osc incs a.activeCount n ≤ p.maxAmplitude.toNat ∧
    (sampleWord p a.osc incs a.activeCount n).toNat = sampleSum p a.osc incs a.activeCount n

/-- R166, R167, R168: the mixer's read-backs answer CUR_NOTE, the active count and S, and change nothing. -/
def Obligations.MixGetAnswersTheMixerRegisters : Prop :=
  encode .mixGetNote = 0x28000000#32 ∧ encode .mixGetActive = 0x29000000#32 ∧ encode .mixGetScount = 0x2A000000#32 ∧
  (∀ s : State,
    exec .mixGetNote s = .next (Said.answered s (BitVec.ofNat 32 s.arch.curNote.toNat)) ∧
    exec .mixGetActive s = .next (Said.answered s (BitVec.ofNat 32 (Said.activeCount s.arch))) ∧
    exec .mixGetScount s = .next (Said.answered s s.arch.scount)) ∧
  ∀ w : Word, opField w ∈ [0x28#8, 0x29#8, 0x2A#8] → w.extractLsb' 0 24 ≠ 0#24 → Said.Raises w

/-- Two fills one after the other give the same samples and the same state as one fill of their total length. -/
def Obligations.SplitFillEqualsOneFill : Prop :=
  ∀ (a b : Half) (s : State), a.toNat + b.toNat ≤ 65535 →
    Said.thenExec (exec (.mixFill a) s) (.mixFill b) = exec (.mixFill (a + b)) s

/-- R133's other implementation conforms: three registers, each loaded with (S * inc) mod 2^32 at the start of the fill and
advanced by its increment after every sample, give the samples of MIX_FILL. Where a slot holds a LEVEL or a CENT outside its
range, which no run reaches, both sides follow the formulas as they are written (the model's choice, log 6). -/
def Obligations.PhaseAccumulatorsGiveTheSameFill : Prop :=
  ∀ (n : Half) (s : State), s.arch.curNote ≠ 0#7 →
    let incs := s.arch.osc.map fun o => BitVec.ofInt 32 (Said.slotInc o s.arch.curNote.toNat)
    let start := incs.map fun i => BitVec.ofNat 32 (s.arch.scount.toNat * i.toNat)
    exec (.mixFill n) s = .next { Said.emitted s
        (Said.accumulatorFill s.params s.arch.osc (Said.activeCount s.arch) incs start n.toNat) with
      arch := { s.arch with scount := s.arch.scount + n.setWidth 32 } }

/-- One period, NOTE_LATCH and then MIX_FILL N, plays the sounding note: CUR_NOTE is it; exactly N samples come out, all 0
where there is no note, and where there is one and the slots hold legal values, sample i is the latched note's mixed sample
at index (S + i) mod 2^32; S advances by N exactly where there is a note; no response comes out, and the slots, the tracker,
ERR and the parameter are unchanged. -/
def Obligations.PeriodPlaysTheSoundingNote : Prop :=
  ∀ (n : Half) (s : State),
    let a : Arch := { s.arch with curNote := BitVec.ofNat 7 s.arch.sounding }
    a.curNote.toNat = s.arch.sounding ∧
    ∃ vs : List Half,
      s.RunsTo (Pseudo.period n).words
        { s with
          cmdPort := []
          outPort := s.outPort ++ vs.map .sample
          arch := { a with scount := if s.arch.sounding = 0 then a.scount else a.scount + n.setWidth 32 } } ∧
      vs.length = n.toNat ∧
      (s.arch.sounding = 0 → vs = List.replicate n.toNat 0#16) ∧
      (s.arch.sounding ≠ 0 → s.arch.slotsInRange → ∀ i (h : i < vs.length),
        vs[i].toNat = Said.sample s.params a ((s.arch.scount.toNat + i) % 2 ^ 32))

/-- OSC_DEFAULTS puts every slot back to its reset values from any state, and changes and emits nothing else. -/
def Obligations.OscDefaultsRestoresTheResetSlots : Prop :=
  ∀ s : State, s.RunsTo Pseudo.oscDefaults.words
    { s with cmdPort := [], arch := { s.arch with osc := State.reset.arch.osc } }

/-! ### The MIDI parser -/

/-- R190: every byte is in exactly one of the four classes, and the parser classes it so; the channel nibble plays no
part. -/
def Obligations.EveryByteIsInExactlyOneClass : Prop :=
  (∀ b : Byte, (byteClass b = .realTime ↔ Said.isRealTime b) ∧ (byteClass b = .noteOn ↔ Said.isOn b) ∧
    (byteClass b = .noteOff ↔ Said.isOff b) ∧ (byteClass b = .other ↔ Said.isOther b)) ∧
  ∀ (s : State) (c d : Byte), c.toNat < 16 → d.toNat < 16 →
    exec (.midiByte (0x90#8 + c)) s = exec (.midiByte (0x90#8 + d)) s ∧
    exec (.midiByte (0x80#8 + c)) s = exec (.midiByte (0x80#8 + d)) s

/-- R191, R192: the transition table, every state and every byte class; MIDI_BYTE changes nothing outside the tracker. -/
def Obligations.MidiByteFollowsTheTransitionTable : Prop :=
  (∀ b : Byte, encode (.midiByte b) = 0x30000000#32 ||| b.setWidth 32) ∧
  (∀ (b : Byte) (s : State), Said.isRealTime b → exec (.midiByte b) s = .next s) ∧
  (∀ (b : Byte) (s : State), Said.isOn b →
    exec (.midiByte b) s = .next { s with arch := { s.arch with mst := .onNote } }) ∧
  (∀ (b : Byte) (s : State), Said.isOff b →
    exec (.midiByte b) s = .next { s with arch := { s.arch with mst := .offNote } }) ∧
  (∀ (b : Byte) (s : State), Said.isOther b → s.arch.mst = .idle → exec (.midiByte b) s = .next s) ∧
  (∀ (b : Byte) (s : State), Said.isOther b → s.arch.mst = .onNote →
    exec (.midiByte b) s = .next { s with arch := { s.arch with mst := .onVel, mnote := b } }) ∧
  (∀ (b : Byte) (s : State), Said.isOther b → s.arch.mst = .offNote →
    exec (.midiByte b) s = .next { s with arch := { s.arch with mst := .offVel, mnote := b } }) ∧
  (∀ (b : Byte) (s : State), Said.isOther b → s.arch.mst = .onVel →
    exec (.midiByte b) s = .next { s with arch := { Said.noteOn s.arch s.arch.mnote b with mst := .idle } }) ∧
  (∀ (b : Byte) (s : State), Said.isOther b → s.arch.mst = .offVel →
    exec (.midiByte b) s = .next { s with arch := { Said.noteOff s.arch s.arch.mnote with mst := .idle } }) ∧
  ∀ w : Word, opField w = 0x30#8 → w.extractLsb' 8 16 ≠ 0#16 → Said.Raises w

/-- R196: ACT never decreases, saturates at 2^32 - 1, and below saturation every activation takes a new value, larger than
every counter, in a state that meets the invariant. -/
def Obligations.ActivationCounterNeverDecreases : Prop :=
  (∀ s t : State, step s = .next t → s.arch.act.toNat ≤ t.arch.act.toNat) ∧
  (∀ (a : Arch) (n v : Byte), n.toNat < 128 → v ≠ 0#8 →
    (a.noteOn n v).act.toNat = min (a.act.toNat + 1) (2 ^ 32 - 1)) ∧
  ∀ (a : Arch) (n v : Byte) (h : n.toNat < 128), v ≠ 0#8 → a.countersOrdered → a.act.toNat < 2 ^ 32 - 1 →
    (a.noteOn n v).ctr[n.toNat].toNat = a.act.toNat + 1 ∧ ∀ j : Fin 128, a.ctr[j].toNat < a.act.toNat + 1

/-- R197: the sounding note is the lowest index of a largest counter, and 0 when every counter is 0. -/
def Obligations.SoundingIsTheFirstLargestCounter : Prop :=
  ∀ a : Arch,
    ((∀ i : Fin 128, a.ctr[i] = 0#32) → a.sounding = 0) ∧
    ((∃ i : Fin 128, a.ctr[i] ≠ 0#32) → ∃ k : Fin 128, a.sounding = k.val ∧ a.ctr[k] ≠ 0#32 ∧
      (∀ j : Fin 128, a.ctr[j].toNat ≤ a.ctr[k].toNat) ∧
      ∀ j : Fin 128, j < k → a.ctr[j].toNat < a.ctr[k].toNat)

/-- R198: MIDI_GET_NOTE answers the sounding note, always 0..127, and changes nothing. -/
def Obligations.MidiGetNoteAnswersTheSoundingNote : Prop :=
  encode .midiGetNote = 0x38000000#32 ∧
  (∀ s : State, ∃ v : Word, exec .midiGetNote s = .next (Said.answered s v) ∧ v.toNat = s.arch.sounding ∧ v.toNat ≤ 127) ∧
  ∀ w : Word, opField w = 0x38#8 → w ≠ 0x38000000#32 → Said.Raises w

/-- Last-note priority: from every state that meets the invariant, whatever the parser was in the middle of, a complete
Note-On with a velocity of 1..127 below saturation makes its note the sounding one; and the Note-Off that follows gives back what sounded before,
where the note was off before. -/
def Obligations.LatestNoteOnSoundsUntilItsNoteOff : Prop :=
  ∀ (s : State) (n v : Byte) (h : n.toNat < 128), s.Inv → 1 ≤ v.toNat → v.toNat < 128 →
    s.arch.act.toNat < 2 ^ 32 - 1 →
    (∃ t, s.RunsTo (Pseudo.noteOn n v).words t ∧ t.arch.sounding = n.toNat ∧ t.arch.mst = .idle ∧
      t.arch.act.toNat = s.arch.act.toNat + 1) ∧
    (s.arch.ctr[n.toNat] = 0#32 →
      ∃ t, s.RunsTo ((Pseudo.noteOn n v).words ++ (Pseudo.noteOff n).words) t ∧
        t.arch.sounding = s.arch.sounding ∧ t.arch.ctr = s.arch.ctr)

/-- A velocity of 0 ends a note exactly as a Note-Off with any velocity does (R193, R194). -/
def Obligations.VelocityZeroActsAsNoteOff : Prop :=
  ∀ (s : State) (n v : Byte) (h : n.toNat < 128), v.toNat < 128 →
    ∃ t, s.RunsTo (Pseudo.noteOn n 0#8).words t ∧
      s.RunsTo ([0x30000080#32] ++ [0x30000000#32 + n.setWidth 32, 0x30000000#32 + v.setWidth 32]) t ∧
      t.arch.ctr = s.arch.ctr.set n.toNat 0#32 h ∧ t.arch.act = s.arch.act

/-- The parser heals itself: two parsers with the same counters, whatever they were in the middle of, agree in all their
state once a status byte and a data byte have come. -/
def Obligations.StatusByteRestartsTheParser : Prop :=
  ∀ (s u : State) (b d : Byte), s.arch.ctr = u.arch.ctr → s.arch.act = u.arch.act →
    (Said.isOn b ∨ Said.isOff b) → Said.isOther d →
    ∃ s' u' : State, s.RunsTo [encode (.midiByte b), encode (.midiByte d)] s' ∧
      u.RunsTo [encode (.midiByte b), encode (.midiByte d)] u' ∧ Said.sameTracker s'.arch u'.arch

/-! ### Control -/

/-- R221: GET_STATUS answers ERR in bit 0 with zeros above, and does not clear it. -/
def Obligations.GetStatusAnswersErr : Prop :=
  encode .getStatus = 0x48000000#32 ∧
  (∀ s : State, s.arch.err = true → exec .getStatus s = .next (Said.answered s 1#32)) ∧
  (∀ s : State, s.arch.err = false → exec .getStatus s = .next (Said.answered s 0#32)) ∧
  ∀ w : Word, opField w = 0x48#8 → w ≠ 0x48000000#32 → Said.Raises w

/-! ### The assembler's lines -/

/-- R82 on text: a line of a mnemonic and operands in any of the spellings of `operand`, with or without a comment after it,
assembles to the row's one word, or is refused where an operand does not fit or the number of operands is wrong; the three
wave names stand for 0, 1 and 2 in OSC_SET_WAVE's second place; `.word` gives the raw 32-bit word whatever it is; a text that
spells no operand is refused in every other place; and a mnemonic that is in no table is refused. Texts are separated as R82
writes them (white space elsewhere, mnemonics and names in capitals alone, and hexadecimal digits in both cases are the
model's choice, log 11). -/
def Obligations.AssemblerReadsEveryLine : Prop :=
  ∀ tail : List Char, Said.isComment tail →
    (∀ (o : Opcode) (texts : List (List Char)) (args : List Int), List.Forall₂ Said.Spells texts args →
      assembleLine (Said.lineText (Said.mnemonic o).toList texts ++ tail) = (Said.assembled o args).map fun w => [w]) ∧
    (∀ (t : List Char) (k : Int), Said.Spells t k →
      assembleLine (Said.lineText "OSC_SET_WAVE".toList [t, "NONE".toList] ++ tail) =
        (Said.assembled .oscSetWave [k, 0]).map (fun w => [w]) ∧
      assembleLine (Said.lineText "OSC_SET_WAVE".toList [t, "SQUARE".toList] ++ tail) =
        (Said.assembled .oscSetWave [k, 1]).map (fun w => [w]) ∧
      assembleLine (Said.lineText "OSC_SET_WAVE".toList [t, "SAW".toList] ++ tail) =
        (Said.assembled .oscSetWave [k, 2]).map (fun w => [w])) ∧
    (∀ (t : List Char) (v : Int), Said.Spells t v →
      assembleLine (Said.lineText ".word".toList [t] ++ tail) =
        if 0 ≤ v ∧ v < 2 ^ 32 then some [BitVec.ofInt 32 v] else none) ∧
    (∀ (o : Opcode) (texts : List (List Char)) (i : Nat) (h : i < texts.length), (∀ t ∈ texts, Said.isPlain t) →
      (∀ v, ¬Said.Spells texts[i] v) →
      ¬(o = .oscSetWave ∧ texts.length = 2 ∧ i = 1 ∧ texts[i] ∈ ["NONE".toList, "SQUARE".toList, "SAW".toList]) →
      assembleLine (Said.lineText (Said.mnemonic o).toList texts ++ tail) = none) ∧
    ∀ (name : List Char) (texts : List (List Char)), Said.isPlain name → (∀ t ∈ texts, Said.isPlain t) →
      (∀ o, name ≠ (Said.mnemonic o).toList) → (∀ m ∈ Said.otherMnemonics, name ≠ m.toList) →
      assembleLine (Said.lineText name texts ++ tail) = none

/-- R83 on text: a line of a pseudo-instruction assembles to the words of its expansion where every operand fits, and is
refused where one does not (separated as in R82's lines, log 11). -/
def Obligations.AssemblerExpandsEveryPseudoLine : Prop :=
  ∀ tail : List Char, Said.isComment tail →
    (∀ (t u : List Char) (n v : Int), Said.Spells t n → Said.Spells u v →
      assembleLine (Said.lineText "NOTE_ON".toList [t, u] ++ tail) =
        if (0 ≤ n ∧ n ≤ 255) ∧ 0 ≤ v ∧ v ≤ 255 then
          some [0x30000090#32, BitVec.ofInt 32 (0x30000000 + n), BitVec.ofInt 32 (0x30000000 + v)]
        else none) ∧
    (∀ (t : List Char) (n : Int), Said.Spells t n →
      assembleLine (Said.lineText "NOTE_OFF".toList [t] ++ tail) =
        (if 0 ≤ n ∧ n ≤ 255 then some [0x30000080#32, BitVec.ofInt 32 (0x30000000 + n), 0x30000000#32] else none) ∧
      assembleLine (Said.lineText "OSC_OFF".toList [t] ++ tail) =
        (if 0 ≤ n ∧ n ≤ 2 then some [BitVec.ofInt 32 (0x10000000 + n * 65536)] else none) ∧
      assembleLine (Said.lineText "PERIOD".toList [t] ++ tail) =
        (if 0 ≤ n ∧ n ≤ 65535 then some [0x40000000#32, BitVec.ofInt 32 (0x21000000 + n)] else none)) ∧
    assembleLine (Said.lineText "SILENCE".toList [] ++ tail) = some [0x20000000#32] ∧
    assembleLine (Said.lineText "OSC_DEFAULTS".toList [] ++ tail) = some
      [0x10000001#32, 0x1100000A#32, 0x13000000#32, 0x10010001#32, 0x1101000A#32, 0x13010000#32,
       0x10020001#32, 0x1102000A#32, 0x13020000#32, 0x12000000#32, 0x12010008#32, 0x120200F8#32]
end

