-- ==== Sys2Proof/Laws/Assembler.lean ====
section
/-!
SUPPORT. The assembler: a line is cut into the texts it was written from, a number reads as the value of its digits, and what
an operand that fits its field becomes.
-/

namespace Sys2Proof.Machine

/-! ### Cutting a line -/

/-- A text that neither begins nor ends with white space is kept whole. -/
theorem trimBlanks_eq_self {cs : List Char} (hh : ∀ c ∈ cs.head?, isBlank c = false)
    (hl : ∀ c ∈ cs.getLast?, isBlank c = false) : trimBlanks cs = cs := by
  have keep : ∀ {ds : List Char}, (∀ c ∈ ds.head?, isBlank c = false) → ds.dropWhile isBlank = ds := by
    rintro (_ | ⟨d, ds⟩) h
    · rfl
    · simp [h d rfl]
  rw [trimBlanks, keep hh, keep (by simpa [List.head?_reverse] using hl), List.reverse_reverse]

theorem trimBlanks_of_noBlank {cs : List Char} (h : ∀ c ∈ cs, isBlank c = false) : trimBlanks cs = cs :=
  trimBlanks_eq_self (fun c hc => h c (List.mem_of_mem_head? hc)) fun c hc => h c (List.mem_of_mem_getLast? hc)

@[simp] theorem trimBlanks_space (cs : List Char) : trimBlanks (' ' :: cs) = trimBlanks cs := by
  simp [trimBlanks, isBlank]

theorem cutCommas_ne_nil (cs : List Char) : cutCommas cs ≠ [] := by
  cases cs with
  | nil => simp [cutCommas]
  | cons c cs => simp only [cutCommas]; split <;> [simp; split <;> simp]

/-- A text without a comma is one piece. -/
theorem cutCommas_of_noComma {cs : List Char} (h : ∀ c ∈ cs, c ≠ ',') : cutCommas cs = [cs] := by
  induction cs with
  | nil => rfl
  | cons c cs ih =>
    simp [cutCommas, h c (by simp), ih fun d hd => h d (by simp [hd])]

/-- The first comma ends the first piece. -/
theorem cutCommas_append {cs : List Char} (h : ∀ c ∈ cs, c ≠ ',') (rest : List Char) :
    cutCommas (cs ++ ',' :: rest) = cs :: cutCommas rest := by
  induction cs with
  | nil => simp [cutCommas]
  | cons c cs ih =>
    simp [cutCommas, h c (by simp), ih fun d hd => h d (by simp [hd])]

theorem takeWhile_append_comment {cs tail : List Char} (h : ∀ c ∈ cs, c ≠ ';')
    (ht : tail.takeWhile (fun c => c ≠ ';') = []) : (cs ++ tail).takeWhile (fun c => c ≠ ';') = cs := by
  rw [List.takeWhile_append_of_pos (by simpa using h), ht, List.append_nil]

/-- A line of a mnemonic alone. -/
theorem lineParts_bare {name tail : List Char} (hn : ∀ c ∈ name, isBlank c = false ∧ c ≠ ';')
    (ht : tail.takeWhile (fun c => c ≠ ';') = []) : lineParts (name ++ tail) = (name, []) := by
  have hb : ∀ c ∈ name, (!isBlank c) = true := fun c hc => by simp [(hn c hc).1]
  have hd : name.dropWhile (fun c => !isBlank c) = [] := List.dropWhile_eq_nil_iff.2 hb
  simp only [lineParts, takeWhile_append_comment (fun c hc => (hn c hc).2) ht,
    trimBlanks_of_noBlank fun c hc => (hn c hc).1, hd, List.takeWhile_eq_self_iff.2 hb]
  simp [trimBlanks]

/-- A line of a mnemonic, a space and operands. -/
theorem lineParts_space {name ops tail : List Char} (hne : name ≠ []) (hn : ∀ c ∈ name, isBlank c = false ∧ c ≠ ';')
    (ho : ops ≠ []) (hs : ∀ c ∈ ops, c ≠ ';') (htrim : trimBlanks ops = ops)
    (hl : ∀ c ∈ ops.getLast?, isBlank c = false) (ht : tail.takeWhile (fun c => c ≠ ';') = []) :
    lineParts (name ++ ' ' :: ops ++ tail) = (name, (cutCommas ops).map trimBlanks) := by
  have hb : ∀ c ∈ name, (!isBlank c) = true := fun c hc => by simp [(hn c hc).1]
  have hcut : (name ++ ' ' :: ops ++ tail).takeWhile (fun c => c ≠ ';') = name ++ ' ' :: ops := by
    refine takeWhile_append_comment (fun c hc => ?_) ht
    rw [List.mem_append, List.mem_cons] at hc
    rcases hc with hc | rfl | hc
    · exact (hn c hc).2
    · decide
    · exact hs c hc
  have hbody : trimBlanks (name ++ ' ' :: ops) = name ++ ' ' :: ops := by
    refine trimBlanks_eq_self (fun c hc => ?_) fun c hc => ?_
    · obtain ⟨d, ds, rfl⟩ := List.exists_cons_of_ne_nil hne
      simp only [List.cons_append, List.head?_cons, Option.mem_def, Option.some.injEq] at hc
      exact (hn c (by simp [hc])).1
    · obtain ⟨d, ds, rfl⟩ := List.exists_cons_of_ne_nil ho
      rw [List.getLast?_append_cons, List.getLast?_cons_cons] at hc
      exact hl c hc
  simp only [lineParts, hcut, hbody]
  rw [List.dropWhile_append_of_pos hb, List.takeWhile_append_of_pos hb,
    List.dropWhile_cons_of_neg (by decide), List.takeWhile_cons_of_neg (by decide), trimBlanks_space, htrim,
    if_neg ho, List.append_nil]

/-! ### Numbers -/

theorem charLe_iff (c d : Char) : c ≤ d ↔ c.toNat ≤ d.toNat := Iff.rfl

/-- A decimal digit is a character of 0..9, and its value is its distance from 0. -/
theorem digitValue?_ten (c : Char) (d : Nat) :
    digitValue? 10 c = some d ↔ ('0' ≤ c ∧ c ≤ '9') ∧ d = c.toNat - 48 := by
  simp only [digitValue?, charLe_iff, show '0'.toNat = 48 from rfl, show '9'.toNat = 57 from rfl,
    show 'A'.toNat = 65 from rfl, show 'F'.toNat = 70 from rfl, show 'a'.toNat = 97 from rfl, show 'f'.toNat = 102 from rfl]
  split_ifs <;> simp <;> omega

/-- A hexadecimal digit is a character of 0..9, A..F or a..f. -/
theorem digitValue?_sixteen (c : Char) (d : Nat) :
    digitValue? 16 c = some d ↔ (('0' ≤ c ∧ c ≤ '9') ∧ d = c.toNat - 48) ∨ (('A' ≤ c ∧ c ≤ 'F') ∧ d = c.toNat - 55) ∨
      (('a' ≤ c ∧ c ≤ 'f') ∧ d = c.toNat - 87) := by
  simp only [digitValue?, charLe_iff, show '0'.toNat = 48 from rfl, show '9'.toNat = 57 from rfl,
    show 'A'.toNat = 65 from rfl, show 'F'.toNat = 70 from rfl, show 'a'.toNat = 97 from rfl, show 'f'.toNat = 102 from rfl]
  split_ifs <;> simp <;> omega

/-- Digits read as the value they spell, where every character is a digit; a character that is none stops the reading. -/
theorem digitsFrom?_eq_some {base : Nat} {value : Char → Nat} {isDigit : Char → Prop}
    (h : ∀ c d, digitValue? base c = some d ↔ isDigit c ∧ d = value c) (acc n : Nat) (cs : List Char) :
    digitsFrom? base acc cs = some n ↔
      (∀ c ∈ cs, isDigit c) ∧ n = cs.foldl (fun m c => m * base + value c) acc := by
  induction cs generalizing acc with
  | nil => simp [digitsFrom?, eq_comm]
  | cons c cs ih =>
    simp only [digitsFrom?, Option.bind_eq_some_iff, h, ih, List.forall_mem_cons, List.foldl_cons]
    constructor
    · rintro ⟨d, ⟨hc, rfl⟩, hcs, rfl⟩; exact ⟨⟨hc, hcs⟩, rfl⟩
    · rintro ⟨⟨hc, hcs⟩, rfl⟩; exact ⟨_, ⟨hc, rfl⟩, hcs, rfl⟩

/-! ### Operands that fit -/

/-- What an operand becomes: its low bits, where it lies between the bounds. -/
theorem field?_eq_some {n : Nat} {lo hi v : Int} {b : BitVec n} :
    field? n lo hi v = some b ↔ (lo ≤ v ∧ v ≤ hi) ∧ b = BitVec.ofInt n v := by
  unfold field?
  split <;> simp_all [eq_comm]

theorem field?_of_fits {n : Nat} {lo hi v : Int} (h : lo ≤ v ∧ v ≤ hi) : field? n lo hi v = some (BitVec.ofInt n v) :=
  if_pos h

theorem field?_of_misfit {n : Nat} {lo hi v : Int} (h : ¬(lo ≤ v ∧ v ≤ hi)) : field? n lo hi v = none := if_neg h

end Sys2Proof.Machine
end

