-- ==== Sys2Proof/Laws/Decode.lean ====
section
/-!
SUPPORT. The lemmas of the command word: the fields of a packed word, the word packed again from its fields, and the
opcode map in both directions.
-/

namespace Sys2Proof

/-! ### Fields and packing -/

@[simp] theorem opField_packWord (op : BitVec 8) (k : SlotSel) (imm : Half) :
    opField (packWord op k imm) = op := by
  apply BitVec.eq_of_getLsbD_eq
  intro i hi
  simp only [opField, packWord, BitVec.getLsbD_extractLsb', BitVec.getLsbD_append]
  rw [if_neg (by omega), if_neg (by omega), if_neg (by omega)]
  simp [hi, show 24 + i - 16 - 2 - 6 = i by omega]

@[simp] theorem resField_packWord (op : BitVec 8) (k : SlotSel) (imm : Half) :
    resField (packWord op k imm) = 0#6 := by
  apply BitVec.eq_of_getLsbD_eq
  intro i hi
  simp only [resField, packWord, BitVec.getLsbD_extractLsb', BitVec.getLsbD_append]
  rw [if_neg (by omega), if_neg (by omega), if_pos (by omega)]
  simp

@[simp] theorem kField_packWord (op : BitVec 8) (k : SlotSel) (imm : Half) :
    kField (packWord op k imm) = k := by
  apply BitVec.eq_of_getLsbD_eq
  intro i hi
  simp only [kField, packWord, BitVec.getLsbD_extractLsb', BitVec.getLsbD_append]
  rw [if_neg (by omega), if_pos (by omega)]
  simp [hi]

@[simp] theorem immField_packWord (op : BitVec 8) (k : SlotSel) (imm : Half) :
    immField (packWord op k imm) = imm := by
  apply BitVec.eq_of_getLsbD_eq
  intro i hi
  simp only [immField, packWord, BitVec.getLsbD_extractLsb', BitVec.getLsbD_append]
  rw [if_pos (by omega)]
  simp [hi]

/-- A word whose RES is 0 is packed from its other fields. -/
theorem packWord_fields {w : Word} (h : resField w = 0#6) :
    packWord (opField w) (kField w) (immField w) = w := by
  apply BitVec.eq_of_getLsbD_eq
  intro i hi
  have hres : ∀ j, j < 6 → w.getLsbD (18 + j) = false := by
    intro j hj
    have := congrArg (fun v => v.getLsbD j) h
    simpa [resField, BitVec.getLsbD_extractLsb', hj] using this
  simp only [packWord, opField, kField, immField, BitVec.getLsbD_append, BitVec.getLsbD_extractLsb']
  split
  · next h16 => simp [h16]
  · split
    · next h2 => simp [h2, show 16 + (i - 16) = i by omega]
    · split
      · next h6 =>
        have := hres (i - 18) (by omega)
        rw [show 18 + (i - 18) = i by omega] at this
        simp [this]
      · rw [show 24 + (i - 16 - 2 - 6) = i by omega]
        simp [show i - 16 - 2 - 6 < 8 by omega]

/-! ### Operand fields -/

@[simp] theorem imm8_setWidth (v : Byte) : imm8 (v.setWidth 16) = v := by
  apply BitVec.eq_of_getLsbD_eq
  intro i hi
  simp [imm8, hi, show i < 16 by omega]

@[simp] theorem imm2_setWidth (v : BitVec 2) : imm2 (v.setWidth 16) = v := by
  apply BitVec.eq_of_getLsbD_eq
  intro i hi
  simp [imm2, hi, show i < 16 by omega]

/-- An immediate whose upper byte is 0 is its low byte with zeros above. -/
theorem setWidth_imm8 {imm : Half} (h : imm &&& ~~~0x00FF#16 = 0#16) : (imm8 imm).setWidth 16 = imm := by
  apply BitVec.eq_of_getLsbD_eq
  intro i hi
  have hbit := congrArg (fun v => v.getLsbD i) h
  have hmask : ∀ i < 16, (~~~0x00FF#16).getLsbD i = decide (8 ≤ i) := by decide
  simp only [BitVec.getLsbD_and, hmask i hi, BitVec.getLsbD_zero] at hbit
  simp only [imm8, BitVec.getLsbD_setWidth, BitVec.getLsbD_extractLsb', Nat.zero_add]
  by_cases h8 : i < 8
  · simp [h8, hi]
  · simp only [show 8 ≤ i by omega, decide_true, Bool.and_true] at hbit
    simp [h8, hbit]

/-- An immediate whose bits above 1:0 are 0 is its low two bits with zeros above. -/
theorem setWidth_imm2 {imm : Half} (h : imm &&& ~~~0x0003#16 = 0#16) : (imm2 imm).setWidth 16 = imm := by
  apply BitVec.eq_of_getLsbD_eq
  intro i hi
  have hbit := congrArg (fun v => v.getLsbD i) h
  have hmask : ∀ i < 16, (~~~0x0003#16).getLsbD i = decide (2 ≤ i) := by decide
  simp only [BitVec.getLsbD_and, hmask i hi, BitVec.getLsbD_zero] at hbit
  simp only [imm2, BitVec.getLsbD_setWidth, BitVec.getLsbD_extractLsb', Nat.zero_add]
  by_cases h2 : i < 2
  · simp [h2, hi]
  · simp only [show 2 ≤ i by omega, decide_true, Bool.and_true] at hbit
    simp [h2, hbit]

/-- An immediate of which no bit is used is 0. -/
theorem imm_eq_zero {imm : Half} (h : imm &&& ~~~0x0000#16 = 0#16) : imm = 0#16 := by
  rwa [show ~~~0x0000#16 = BitVec.allOnes 16 by decide, BitVec.and_allOnes] at h

/-! ### The opcode map -/

@[simp] theorem Opcode.ofCode?_code (o : Opcode) : Opcode.ofCode? o.code = some o := by
  cases o <;> rfl

/-- A value of OP selects the operation whose code it is. -/
theorem Opcode.code_of_ofCode? {c : BitVec 8} {o : Opcode} (h : Opcode.ofCode? c = some o) : o.code = c := by
  have := List.find?_some h
  simpa using this

/-- The command read from an operation's fields has that operation. -/
@[simp] theorem Opcode.toInstr_opcode (o : Opcode) (k : SlotSel) (imm : Half) :
    (o.toInstr k imm).opcode = o := by
  cases o <;> rfl

/-- The slot selector of the command read from the fields of a slot command. -/
theorem Opcode.toInstr_slot {o : Opcode} {k : SlotSel} {imm : Half} (h : ¬(o.takesSlot = false ∧ k ≠ 0#2)) :
    (o.toInstr k imm).slot = k := by
  cases o <;> simp_all [Opcode.takesSlot, Opcode.toInstr, Instr.slot]

/-- The immediate of the command read from fields whose unused bits are 0. -/
theorem Opcode.toInstr_imm {o : Opcode} {k : SlotSel} {imm : Half} (h : imm &&& ~~~o.usedMask = 0#16) :
    (o.toInstr k imm).imm = imm := by
  cases o <;> simp only [Opcode.usedMask, Opcode.toInstr, Instr.imm] at h ⊢ <;>
    first
      | exact setWidth_imm8 h
      | exact setWidth_imm2 h
      | exact (imm_eq_zero h).symm

/-- The fields of a command read the command back. -/
theorem Instr.toInstr_fields (i : Instr) : i.opcode.toInstr i.slot i.imm = i := by
  cases i <;> simp [Instr.opcode, Opcode.toInstr, Instr.slot, Instr.imm]

/-- Only a slot command carries a selector. -/
theorem Instr.slot_of_not_takesSlot {i : Instr} (h : i.opcode.takesSlot = false) : i.slot = 0#2 := by
  cases i <;> simp_all [Instr.opcode, Opcode.takesSlot, Instr.slot]

theorem and_not_255 (v : Byte) : v.setWidth 16 &&& ~~~0x00FF#16 = 0#16 := by
  apply BitVec.eq_of_getLsbD_eq
  intro i hi
  have hmask : ∀ i < 16, (~~~0x00FF#16).getLsbD i = decide (8 ≤ i) := by decide
  simp only [BitVec.getLsbD_and, hmask i hi, BitVec.getLsbD_setWidth, BitVec.getLsbD_zero]
  by_cases h : 8 ≤ i
  · simp [BitVec.getLsbD_of_ge v i h]
  · simp [h]

theorem and_not_3 (v : BitVec 2) : v.setWidth 16 &&& ~~~0x0003#16 = 0#16 := by
  revert v; decide

/-- The unused immediate bits of a command are 0. -/
theorem Instr.imm_unused (i : Instr) : i.imm &&& ~~~i.opcode.usedMask = 0#16 := by
  cases i <;> simp only [Instr.imm, Instr.opcode, Opcode.usedMask] <;>
    first
      | exact and_not_255 _
      | exact and_not_3 _
      | simp

/-! ### What the decoder answers -/

/-- The decoder accepts a word only as the command its fields spell, every condition of R77 checked. -/
theorem decode_eq_instr {w : Word} {i : Instr} (h : decode w = .instr i) :
    ∃ o, Opcode.ofCode? (opField w) = some o ∧ resField w = 0#6 ∧ ¬(o.takesSlot = false ∧ kField w ≠ 0#2) ∧
      immField w &&& ~~~o.usedMask = 0#16 ∧ i = o.toInstr (kField w) (immField w) ∧ i.wellFormed = true := by
  unfold decode at h
  split at h
  · cases h
  · next o ho =>
    split at h
    · cases h
    · next hres =>
      split at h
      · cases h
      · next hk =>
        split at h
        · cases h
        · next himm =>
          split at h
          · next hwf =>
            cases h
            exact ⟨o, ho, by simpa using hres, hk, by simpa using himm, rfl, hwf⟩
          · cases h

/-- A word that meets the conditions decodes to the command its fields spell. -/
theorem decode_of_fields {w : Word} {o : Opcode} (ho : Opcode.ofCode? (opField w) = some o)
    (hres : resField w = 0#6) (hk : ¬(o.takesSlot = false ∧ kField w ≠ 0#2))
    (himm : immField w &&& ~~~o.usedMask = 0#16)
    (hwf : (o.toInstr (kField w) (immField w)).wellFormed = true) :
    decode w = .instr (o.toInstr (kField w) (immField w)) := by
  unfold decode
  rw [ho]
  simp only
  rw [if_neg (by simp [hres]), if_neg hk, if_neg (by simp [himm]), if_pos hwf]

/-! ### The conditions of R77, field by field -/

/-- The value of a packed word. -/
theorem packWord_toNat (op : BitVec 8) (k : SlotSel) (imm : Half) :
    (packWord op k imm).toNat = op.toNat * 2 ^ 24 + k.toNat * 2 ^ 16 + imm.toNat := by
  have h1 := Nat.shiftLeft_add_eq_or_of_lt imm.isLt ((op ++ 0#6) ++ k).toNat
  have h2 := Nat.shiftLeft_add_eq_or_of_lt k.isLt (op ++ 0#6).toNat
  have h3 := Nat.shiftLeft_add_eq_or_of_lt (0#6).isLt op.toNat
  simp only [packWord, BitVec.toNat_append] at h1 h2 h3 ⊢
  rw [← h1, ← h2, ← h3]
  simp only [Nat.shiftLeft_eq, BitVec.toNat_ofNat]
  omega

theorem Opcode.code_mem_assignedOps (o : Opcode) : o.code ∈ assignedOps := by cases o <;> decide

theorem Opcode.code_mem_slotOps (o : Opcode) : o.code ∈ slotOps ↔ o.takesSlot = true := by cases o <;> decide

theorem Opcode.usedMaskOfOp_code (o : Opcode) : usedMaskOfOp o.code = o.usedMask := by cases o <;> decide

/-- Every assigned code selects an operation. -/
theorem Opcode.ofCode?_of_mem {c : BitVec 8} (h : c ∈ assignedOps) : ∃ o, Opcode.ofCode? c = some o := by
  have hall : ∀ c ∈ assignedOps, (Opcode.ofCode? c).isSome = true := by decide
  exact Option.isSome_iff_exists.1 (hall c h)

theorem imm8_immField (w : Word) : imm8 (immField w) = w.extractLsb' 0 8 := by
  apply BitVec.eq_of_getLsbD_eq
  intro i hi
  simp [imm8, immField, hi]

theorem imm2_immField (w : Word) : imm2 (immField w) = w.extractLsb' 0 2 := by
  apply BitVec.eq_of_getLsbD_eq
  intro i hi
  simp [imm2, immField, hi]

theorem slotLegal_iff (k : SlotSel) : slotLegal k = true ↔ k.toNat ≤ 2 := by revert k; decide

theorem slotLegal_ofNat (j : Fin 3) : slotLegal (BitVec.ofNat 2 j.val) = true := by revert j; decide

theorem waveCodeLegal_iff (k : BitVec 2) : waveCodeLegal k = true ↔ k.toNat ≤ 2 := by revert k; decide

/-- The value conditions of the command read from an operation's fields. -/
theorem Opcode.toInstr_wellFormed_iff (o : Opcode) (k : SlotSel) (imm : Half) :
    (o.toInstr k imm).wellFormed = true ↔
      (o.takesSlot = true → k.toNat ≤ 2) ∧ (o.code = 0x10#8 → (imm2 imm).toNat ≤ 2) ∧
      (o.code = 0x11#8 → (imm8 imm).toNat ≤ 10) ∧
      (o.code = 0x12#8 → -100 ≤ (imm8 imm).toInt ∧ (imm8 imm).toInt ≤ 100) := by
  cases o <;> simp [Opcode.toInstr, Instr.wellFormed, Opcode.takesSlot, slotLegal_iff, waveCodeLegal_iff, Opcode.code,
    levelLegal, centLegal]

/-- `Legal` of R77, in the terms of the decoder. -/
theorem legal_iff (w : Word) : legal w ↔ ∃ o, Opcode.ofCode? (opField w) = some o ∧ resField w = 0#6 ∧
    ¬(o.takesSlot = false ∧ kField w ≠ 0#2) ∧ immField w &&& ~~~o.usedMask = 0#16 ∧
    (o.toInstr (kField w) (immField w)).wellFormed = true := by
  unfold legal
  simp only [Opcode.toInstr_wellFormed_iff, imm8_immField, imm2_immField]
  constructor
  · rintro ⟨h1, h2, h3, h4, h5⟩
    obtain ⟨o, ho⟩ := Opcode.ofCode?_of_mem h1
    have hc := Opcode.code_of_ofCode? ho
    rw [← hc] at h3 h4 h5
    rw [Opcode.usedMaskOfOp_code] at h4
    refine ⟨o, ho, h2, ?_, h4, ?_, h5⟩
    · rintro ⟨a, b⟩
      rw [if_neg (by simp [Opcode.code_mem_slotOps, a])] at h3
      exact b h3
    · intro ht
      rwa [if_pos ((Opcode.code_mem_slotOps o).2 ht)] at h3
  · rintro ⟨o, ho, h2, hk, h4, hs, hv⟩
    have hc := Opcode.code_of_ofCode? ho
    rw [← hc]
    refine ⟨Opcode.code_mem_assignedOps o, h2, ?_, by rw [Opcode.usedMaskOfOp_code]; exact h4, hv⟩
    split
    · next ht => exact hs ((Opcode.code_mem_slotOps o).1 ht)
    · next ht =>
      rw [Opcode.code_mem_slotOps] at ht
      by_contra hne
      exact hk ⟨by simpa using ht, hne⟩

/-- R76's match under the row's mask is the row's OP with every reserved bit 0. -/
theorem and_mask_iff (w : Word) (o : Opcode) : w &&& o.maskWord = o.matchWord ↔
   opField w = o.code ∧ resField w = 0#6 ∧ ¬(o.takesSlot = false ∧ kField w ≠ 0#2) ∧ immField w &&& ~~~o.usedMask = 0#16 := by
  have hm : ∀ o : Opcode, opField o.maskWord = BitVec.allOnes 8 ∧ resField o.maskWord = BitVec.allOnes 6 ∧
     kField o.maskWord = (if o.takesSlot then 0#2 else BitVec.allOnes 2) ∧ immField o.maskWord = ~~~o.usedMask := by
    intro o; cases o <;> decide
  have hv : ∀ o : Opcode, opField o.matchWord = o.code ∧ resField o.matchWord = 0#6 ∧ kField o.matchWord = 0#2 ∧ immField o.matchWord = 0#16 := by
    intro o; cases o <;> decide
  obtain ⟨m1,m2,m3,m4⟩ := hm o
  obtain ⟨v1,v2,v3,v4⟩ := hv o
  have e1 : ∀ a b : Word, opField (a &&& b) = opField a &&& opField b := fun a b => by
    apply BitVec.eq_of_getLsbD_eq; intro i hi; simp [opField, hi]
  have e2 : ∀ a b : Word, resField (a &&& b) = resField a &&& resField b := fun a b => by
    apply BitVec.eq_of_getLsbD_eq; intro i hi; simp [resField, hi]
  have e3 : ∀ a b : Word, kField (a &&& b) = kField a &&& kField b := fun a b => by
    apply BitVec.eq_of_getLsbD_eq; intro i hi; simp [kField, hi]
  have e4 : ∀ a b : Word, immField (a &&& b) = immField a &&& immField b := fun a b => by
    apply BitVec.eq_of_getLsbD_eq; intro i hi; simp [immField, hi]
  constructor
  · intro h
    have h1 := congrArg opField h
    have h2 := congrArg resField h
    have h3 := congrArg kField h
    have h4 := congrArg immField h
    rw [e1, m1, v1, BitVec.and_allOnes] at h1
    rw [e2, m2, v2, BitVec.and_allOnes] at h2
    rw [e3, m3, v3] at h3
    rw [e4, m4, v4] at h4
    refine ⟨h1, h2, ?_, h4⟩
    rintro ⟨a, b⟩
    rw [if_neg (by simp [a]), BitVec.and_allOnes] at h3
    exact b h3
  · rintro ⟨h1, h2, h3, h4⟩
    have hres : resField (w &&& o.maskWord) = 0#6 := by rw [e2, m2, h2]; decide
    rw [← packWord_fields hres, ← packWord_fields v2]
    rw [e1, m1, v1, BitVec.and_allOnes, h1, e3, v3, e4, m4, v4, h4]
    congr 1
    rw [m3]
    split
    · simp
    · next ht =>
      have : kField w = 0#2 := by by_contra hne; exact h3 ⟨by simpa using ht, hne⟩
      simp [this]

/-! ### The fields of an 8-bit operand's word -/

/-- Bits 15:8 of a word with an 8-bit operand are 0. -/
theorem pack_hi16 (op : BitVec 8) (k) (v : Byte) : (packWord op k (v.setWidth 16)).extractLsb' 8 8 = 0#8 := by
  apply BitVec.eq_of_getLsbD_eq; intro i hi
  simp only [packWord, BitVec.getLsbD_extractLsb', BitVec.getLsbD_append, BitVec.getLsbD_setWidth]
  simp [hi, show 8 + i < 16 by omega]

/-- Bits 7:0 of a word with an 8-bit operand are the operand. -/
theorem pack_lo8 (op : BitVec 8) (k) (v : Byte) : (packWord op k (v.setWidth 16)).extractLsb' 0 8 = v := by
  apply BitVec.eq_of_getLsbD_eq; intro i hi
  simp only [packWord, BitVec.getLsbD_extractLsb', BitVec.getLsbD_append, BitVec.getLsbD_setWidth]
  simp [hi, show i < 16 by omega]

/-- Bits 23:8 of a word with an 8-bit operand and no slot are 0. -/
theorem pack_hi24 (op : BitVec 8) (v : Byte) : (packWord op 0#2 (v.setWidth 16)).extractLsb' 8 16 = 0#16 := by
  apply BitVec.eq_of_getLsbD_eq; intro i hi
  simp only [packWord, BitVec.getLsbD_extractLsb', BitVec.getLsbD_append, BitVec.getLsbD_setWidth]
  by_cases h1 : 8 + i < 16
  · simp [h1]
  · by_cases h2 : 8 + i - 16 < 2
    · simp [h1, h2]
    · simp [hi, h1, h2, show 8 + i - 16 - 2 < 6 by omega]

end Sys2Proof
end

