-- ==== Sys2Proof/Laws/State.lean ====
section
/-!
SUPPORT. One lemma per field per update of the state, each true by unfolding.
-/

namespace Sys2Proof.Machine

/-! ### `State.setErr` -/

@[simp] theorem State.setErr_params (s : State) : (s.setErr).params = s.params := rfl
@[simp] theorem State.setErr_osc (s : State) : (s.setErr).arch.osc = s.arch.osc := rfl
@[simp] theorem State.setErr_curNote (s : State) : (s.setErr).arch.curNote = s.arch.curNote := rfl
@[simp] theorem State.setErr_scount (s : State) : (s.setErr).arch.scount = s.arch.scount := rfl
@[simp] theorem State.setErr_ctr (s : State) : (s.setErr).arch.ctr = s.arch.ctr := rfl
@[simp] theorem State.setErr_act (s : State) : (s.setErr).arch.act = s.arch.act := rfl
@[simp] theorem State.setErr_mst (s : State) : (s.setErr).arch.mst = s.arch.mst := rfl
@[simp] theorem State.setErr_mnote (s : State) : (s.setErr).arch.mnote = s.arch.mnote := rfl
@[simp] theorem State.setErr_err (s : State) : (s.setErr).arch.err = true := rfl
@[simp] theorem State.setErr_cmdPort (s : State) : (s.setErr).cmdPort = s.cmdPort := rfl
@[simp] theorem State.setErr_outPort (s : State) : (s.setErr).outPort = s.outPort := rfl

/-! ### `State.offer` -/

@[simp] theorem State.offer_params (s : State) (w : Word) : (s.offer w).params = s.params := rfl
@[simp] theorem State.offer_osc (s : State) (w : Word) : (s.offer w).arch.osc = s.arch.osc := rfl
@[simp] theorem State.offer_curNote (s : State) (w : Word) : (s.offer w).arch.curNote = s.arch.curNote := rfl
@[simp] theorem State.offer_scount (s : State) (w : Word) : (s.offer w).arch.scount = s.arch.scount := rfl
@[simp] theorem State.offer_ctr (s : State) (w : Word) : (s.offer w).arch.ctr = s.arch.ctr := rfl
@[simp] theorem State.offer_act (s : State) (w : Word) : (s.offer w).arch.act = s.arch.act := rfl
@[simp] theorem State.offer_mst (s : State) (w : Word) : (s.offer w).arch.mst = s.arch.mst := rfl
@[simp] theorem State.offer_mnote (s : State) (w : Word) : (s.offer w).arch.mnote = s.arch.mnote := rfl
@[simp] theorem State.offer_err (s : State) (w : Word) : (s.offer w).arch.err = s.arch.err := rfl
@[simp] theorem State.offer_cmdPort (s : State) (w : Word) : (s.offer w).cmdPort = s.cmdPort ++ [w] := rfl
@[simp] theorem State.offer_outPort (s : State) (w : Word) : (s.offer w).outPort = s.outPort := rfl
@[simp] theorem State.offer_arch (s : State) (w : Word) : (s.offer w).arch = s.arch := rfl

/-! ### `State.placeNext` -/

@[simp] theorem State.placeNext_params (s : State) (w : Word) : (s.placeNext w).params = s.params := rfl
@[simp] theorem State.placeNext_osc (s : State) (w : Word) : (s.placeNext w).arch.osc = s.arch.osc := rfl
@[simp] theorem State.placeNext_curNote (s : State) (w : Word) : (s.placeNext w).arch.curNote = s.arch.curNote := rfl
@[simp] theorem State.placeNext_scount (s : State) (w : Word) : (s.placeNext w).arch.scount = s.arch.scount := rfl
@[simp] theorem State.placeNext_ctr (s : State) (w : Word) : (s.placeNext w).arch.ctr = s.arch.ctr := rfl
@[simp] theorem State.placeNext_act (s : State) (w : Word) : (s.placeNext w).arch.act = s.arch.act := rfl
@[simp] theorem State.placeNext_mst (s : State) (w : Word) : (s.placeNext w).arch.mst = s.arch.mst := rfl
@[simp] theorem State.placeNext_mnote (s : State) (w : Word) : (s.placeNext w).arch.mnote = s.arch.mnote := rfl
@[simp] theorem State.placeNext_err (s : State) (w : Word) : (s.placeNext w).arch.err = s.arch.err := rfl
@[simp] theorem State.placeNext_cmdPort (s : State) (w : Word) : (s.placeNext w).cmdPort = w :: s.cmdPort := rfl
@[simp] theorem State.placeNext_outPort (s : State) (w : Word) : (s.placeNext w).outPort = s.outPort := rfl
@[simp] theorem State.placeNext_arch (s : State) (w : Word) : (s.placeNext w).arch = s.arch := rfl

/-! ### `State.respond` -/

@[simp] theorem State.respond_params (s : State) (v : Word) : (s.respond v).params = s.params := rfl
@[simp] theorem State.respond_osc (s : State) (v : Word) : (s.respond v).arch.osc = s.arch.osc := rfl
@[simp] theorem State.respond_curNote (s : State) (v : Word) : (s.respond v).arch.curNote = s.arch.curNote := rfl
@[simp] theorem State.respond_scount (s : State) (v : Word) : (s.respond v).arch.scount = s.arch.scount := rfl
@[simp] theorem State.respond_ctr (s : State) (v : Word) : (s.respond v).arch.ctr = s.arch.ctr := rfl
@[simp] theorem State.respond_act (s : State) (v : Word) : (s.respond v).arch.act = s.arch.act := rfl
@[simp] theorem State.respond_mst (s : State) (v : Word) : (s.respond v).arch.mst = s.arch.mst := rfl
@[simp] theorem State.respond_mnote (s : State) (v : Word) : (s.respond v).arch.mnote = s.arch.mnote := rfl
@[simp] theorem State.respond_err (s : State) (v : Word) : (s.respond v).arch.err = s.arch.err := rfl
@[simp] theorem State.respond_cmdPort (s : State) (v : Word) : (s.respond v).cmdPort = s.cmdPort := rfl
@[simp] theorem State.respond_outPort (s : State) (v : Word) : (s.respond v).outPort = s.outPort ++ [.response v] := rfl
@[simp] theorem State.respond_arch (s : State) (v : Word) : (s.respond v).arch = s.arch := rfl

/-! ### `State.emitAll` -/

@[simp] theorem State.emitAll_params (s : State) (vs : List Half) : (s.emitAll vs).params = s.params := rfl
@[simp] theorem State.emitAll_osc (s : State) (vs : List Half) : (s.emitAll vs).arch.osc = s.arch.osc := rfl
@[simp] theorem State.emitAll_curNote (s : State) (vs : List Half) : (s.emitAll vs).arch.curNote = s.arch.curNote := rfl
@[simp] theorem State.emitAll_scount (s : State) (vs : List Half) : (s.emitAll vs).arch.scount = s.arch.scount := rfl
@[simp] theorem State.emitAll_ctr (s : State) (vs : List Half) : (s.emitAll vs).arch.ctr = s.arch.ctr := rfl
@[simp] theorem State.emitAll_act (s : State) (vs : List Half) : (s.emitAll vs).arch.act = s.arch.act := rfl
@[simp] theorem State.emitAll_mst (s : State) (vs : List Half) : (s.emitAll vs).arch.mst = s.arch.mst := rfl
@[simp] theorem State.emitAll_mnote (s : State) (vs : List Half) : (s.emitAll vs).arch.mnote = s.arch.mnote := rfl
@[simp] theorem State.emitAll_err (s : State) (vs : List Half) : (s.emitAll vs).arch.err = s.arch.err := rfl
@[simp] theorem State.emitAll_cmdPort (s : State) (vs : List Half) : (s.emitAll vs).cmdPort = s.cmdPort := rfl
@[simp] theorem State.emitAll_outPort (s : State) (vs : List Half) : (s.emitAll vs).outPort = s.outPort ++ vs.map .sample := rfl
@[simp] theorem State.emitAll_arch (s : State) (vs : List Half) : (s.emitAll vs).arch = s.arch := rfl

/-! ### `State.setOsc` -/

@[simp] theorem State.setOsc_params (s : State) (k : Fin 3) (o : Osc) : (s.setOsc k o).params = s.params := rfl
@[simp] theorem State.setOsc_osc (s : State) (k : Fin 3) (o : Osc) : (s.setOsc k o).arch.osc = s.arch.osc.set k.val o k.isLt := rfl
@[simp] theorem State.setOsc_curNote (s : State) (k : Fin 3) (o : Osc) : (s.setOsc k o).arch.curNote = s.arch.curNote := rfl
@[simp] theorem State.setOsc_scount (s : State) (k : Fin 3) (o : Osc) : (s.setOsc k o).arch.scount = s.arch.scount := rfl
@[simp] theorem State.setOsc_ctr (s : State) (k : Fin 3) (o : Osc) : (s.setOsc k o).arch.ctr = s.arch.ctr := rfl
@[simp] theorem State.setOsc_act (s : State) (k : Fin 3) (o : Osc) : (s.setOsc k o).arch.act = s.arch.act := rfl
@[simp] theorem State.setOsc_mst (s : State) (k : Fin 3) (o : Osc) : (s.setOsc k o).arch.mst = s.arch.mst := rfl
@[simp] theorem State.setOsc_mnote (s : State) (k : Fin 3) (o : Osc) : (s.setOsc k o).arch.mnote = s.arch.mnote := rfl
@[simp] theorem State.setOsc_err (s : State) (k : Fin 3) (o : Osc) : (s.setOsc k o).arch.err = s.arch.err := rfl
@[simp] theorem State.setOsc_cmdPort (s : State) (k : Fin 3) (o : Osc) : (s.setOsc k o).cmdPort = s.cmdPort := rfl
@[simp] theorem State.setOsc_outPort (s : State) (k : Fin 3) (o : Osc) : (s.setOsc k o).outPort = s.outPort := rfl

/-! ### `State.setCurNote` -/

@[simp] theorem State.setCurNote_params (s : State) (n : BitVec 7) : (s.setCurNote n).params = s.params := rfl
@[simp] theorem State.setCurNote_osc (s : State) (n : BitVec 7) : (s.setCurNote n).arch.osc = s.arch.osc := rfl
@[simp] theorem State.setCurNote_curNote (s : State) (n : BitVec 7) : (s.setCurNote n).arch.curNote = n := rfl
@[simp] theorem State.setCurNote_scount (s : State) (n : BitVec 7) : (s.setCurNote n).arch.scount = s.arch.scount := rfl
@[simp] theorem State.setCurNote_ctr (s : State) (n : BitVec 7) : (s.setCurNote n).arch.ctr = s.arch.ctr := rfl
@[simp] theorem State.setCurNote_act (s : State) (n : BitVec 7) : (s.setCurNote n).arch.act = s.arch.act := rfl
@[simp] theorem State.setCurNote_mst (s : State) (n : BitVec 7) : (s.setCurNote n).arch.mst = s.arch.mst := rfl
@[simp] theorem State.setCurNote_mnote (s : State) (n : BitVec 7) : (s.setCurNote n).arch.mnote = s.arch.mnote := rfl
@[simp] theorem State.setCurNote_err (s : State) (n : BitVec 7) : (s.setCurNote n).arch.err = s.arch.err := rfl
@[simp] theorem State.setCurNote_cmdPort (s : State) (n : BitVec 7) : (s.setCurNote n).cmdPort = s.cmdPort := rfl
@[simp] theorem State.setCurNote_outPort (s : State) (n : BitVec 7) : (s.setCurNote n).outPort = s.outPort := rfl

/-! ### `State.advanceScount` -/

@[simp] theorem State.advanceScount_params (s : State) (n : Nat) : (s.advanceScount n).params = s.params := rfl
@[simp] theorem State.advanceScount_osc (s : State) (n : Nat) : (s.advanceScount n).arch.osc = s.arch.osc := rfl
@[simp] theorem State.advanceScount_curNote (s : State) (n : Nat) : (s.advanceScount n).arch.curNote = s.arch.curNote := rfl
@[simp] theorem State.advanceScount_scount (s : State) (n : Nat) : (s.advanceScount n).arch.scount = s.arch.scount + BitVec.ofNat 32 n := rfl
@[simp] theorem State.advanceScount_ctr (s : State) (n : Nat) : (s.advanceScount n).arch.ctr = s.arch.ctr := rfl
@[simp] theorem State.advanceScount_act (s : State) (n : Nat) : (s.advanceScount n).arch.act = s.arch.act := rfl
@[simp] theorem State.advanceScount_mst (s : State) (n : Nat) : (s.advanceScount n).arch.mst = s.arch.mst := rfl
@[simp] theorem State.advanceScount_mnote (s : State) (n : Nat) : (s.advanceScount n).arch.mnote = s.arch.mnote := rfl
@[simp] theorem State.advanceScount_err (s : State) (n : Nat) : (s.advanceScount n).arch.err = s.arch.err := rfl
@[simp] theorem State.advanceScount_cmdPort (s : State) (n : Nat) : (s.advanceScount n).cmdPort = s.cmdPort := rfl
@[simp] theorem State.advanceScount_outPort (s : State) (n : Nat) : (s.advanceScount n).outPort = s.outPort := rfl

/-! ### `Arch.setCtr` -/

@[simp] theorem Arch.setCtr_osc (a : Arch) (n : Fin 128) (v : Word) : (a.setCtr n v).osc = a.osc := rfl
@[simp] theorem Arch.setCtr_curNote (a : Arch) (n : Fin 128) (v : Word) : (a.setCtr n v).curNote = a.curNote := rfl
@[simp] theorem Arch.setCtr_scount (a : Arch) (n : Fin 128) (v : Word) : (a.setCtr n v).scount = a.scount := rfl
@[simp] theorem Arch.setCtr_ctr (a : Arch) (n : Fin 128) (v : Word) : (a.setCtr n v).ctr = a.ctr.set n.val v n.isLt := rfl
@[simp] theorem Arch.setCtr_act (a : Arch) (n : Fin 128) (v : Word) : (a.setCtr n v).act = a.act := rfl
@[simp] theorem Arch.setCtr_mst (a : Arch) (n : Fin 128) (v : Word) : (a.setCtr n v).mst = a.mst := rfl
@[simp] theorem Arch.setCtr_mnote (a : Arch) (n : Fin 128) (v : Word) : (a.setCtr n v).mnote = a.mnote := rfl
@[simp] theorem Arch.setCtr_err (a : Arch) (n : Fin 128) (v : Word) : (a.setCtr n v).err = a.err := rfl

/-! ### `Arch.setMst` -/

@[simp] theorem Arch.setMst_osc (a : Arch) (m : ParserState) : (a.setMst m).osc = a.osc := rfl
@[simp] theorem Arch.setMst_curNote (a : Arch) (m : ParserState) : (a.setMst m).curNote = a.curNote := rfl
@[simp] theorem Arch.setMst_scount (a : Arch) (m : ParserState) : (a.setMst m).scount = a.scount := rfl
@[simp] theorem Arch.setMst_ctr (a : Arch) (m : ParserState) : (a.setMst m).ctr = a.ctr := rfl
@[simp] theorem Arch.setMst_act (a : Arch) (m : ParserState) : (a.setMst m).act = a.act := rfl
@[simp] theorem Arch.setMst_mst (a : Arch) (m : ParserState) : (a.setMst m).mst = m := rfl
@[simp] theorem Arch.setMst_mnote (a : Arch) (m : ParserState) : (a.setMst m).mnote = a.mnote := rfl
@[simp] theorem Arch.setMst_err (a : Arch) (m : ParserState) : (a.setMst m).err = a.err := rfl

/-! ### `Arch.capture` -/

@[simp] theorem Arch.capture_osc (a : Arch) (b : Byte) (m : ParserState) : (a.capture b m).osc = a.osc := rfl
@[simp] theorem Arch.capture_curNote (a : Arch) (b : Byte) (m : ParserState) : (a.capture b m).curNote = a.curNote := rfl
@[simp] theorem Arch.capture_scount (a : Arch) (b : Byte) (m : ParserState) : (a.capture b m).scount = a.scount := rfl
@[simp] theorem Arch.capture_ctr (a : Arch) (b : Byte) (m : ParserState) : (a.capture b m).ctr = a.ctr := rfl
@[simp] theorem Arch.capture_act (a : Arch) (b : Byte) (m : ParserState) : (a.capture b m).act = a.act := rfl
@[simp] theorem Arch.capture_mst (a : Arch) (b : Byte) (m : ParserState) : (a.capture b m).mst = m := rfl
@[simp] theorem Arch.capture_mnote (a : Arch) (b : Byte) (m : ParserState) : (a.capture b m).mnote = b := rfl
@[simp] theorem Arch.capture_err (a : Arch) (b : Byte) (m : ParserState) : (a.capture b m).err = a.err := rfl

/-! ### Reading a slot or a counter after a write -/

/-- A slot read after a write of a slot. -/
theorem State.setOsc_getElem (s : State) (k j : Fin 3) (o : Osc) :
    (s.setOsc k o).arch.osc[j] = if k = j then o else s.arch.osc[j] := by
  simp only [State.setOsc_osc, Fin.getElem_fin, Vector.getElem_set, Fin.ext_iff]

/-- A counter read after a write of a counter. -/
theorem Arch.setCtr_getElem (a : Arch) (n j : Fin 128) (v : Word) :
    (a.setCtr n v).ctr[j] = if n = j then v else a.ctr[j] := by
  simp only [Arch.setCtr_ctr, Fin.getElem_fin, Vector.getElem_set, Fin.ext_iff]

/-! ### The views of the output ports -/

@[simp] theorem State.respond_responses (s : State) (v : Word) :
    (s.respond v).responses = s.responses ++ [v] := by simp [State.responses]

@[simp] theorem State.respond_samples (s : State) (v : Word) : (s.respond v).samples = s.samples := by
  simp [State.samples]

@[simp] theorem State.emitAll_samples (s : State) (vs : List Half) :
    (s.emitAll vs).samples = s.samples ++ vs := by
  simp [State.samples, List.filterMap_map]

@[simp] theorem State.emitAll_responses (s : State) (vs : List Half) :
    (s.emitAll vs).responses = s.responses := by
  simp [State.responses, List.filterMap_map]

end Sys2Proof.Machine
end

