-- ==== Sys2Proof/Laws/Ops.lean ====
section
/-!
SUPPORT. What each shared operation can do, once: the operand forms, the choice between a legal operand's effect and the
exception, and the command port.
-/

namespace Sys2Proof.Machine

/-! ### Operand forms -/

/-- The selector of a slot. -/
theorem slotOf?_ofNat (k : Fin 3) : slotOf? (BitVec.ofNat 2 k.val) = some k := by
  revert k; decide

@[simp] theorem slotOf?_three : slotOf? 3#2 = none := by decide

/-- A selector names a slot, or it is 3. -/
theorem slotOf?_cases (k : SlotSel) :
    (k = 3#2 ∧ slotOf? k = none) ∨ ∃ j : Fin 3, k = BitVec.ofNat 2 j.val ∧ slotOf? k = some j := by
  revert k; decide

@[simp] theorem Wave.ofCode?_code (v : Wave) : Wave.ofCode? v.code = some v := by
  cases v <;> rfl

@[simp] theorem Wave.ofCode?_three : Wave.ofCode? 3#2 = Option.none := by decide

/-- A code names a waveform, or it is 3. -/
theorem Wave.ofCode?_cases (c : BitVec 2) :
    (c = 3#2 ∧ Wave.ofCode? c = Option.none) ∨ ∃ v : Wave, c = v.code ∧ Wave.ofCode? c = some v := by
  have h : ∀ c : BitVec 2, c = 0#2 ∨ c = 1#2 ∨ c = 2#2 ∨ c = 3#2 := by decide
  rcases h c with rfl | rfl | rfl | rfl
  · exact .inr ⟨.none, rfl, rfl⟩
  · exact .inr ⟨.square, rfl, rfl⟩
  · exact .inr ⟨.sawtooth, rfl, rfl⟩
  · exact .inl ⟨rfl, rfl⟩

theorem levelOf?_some {l : Byte} (h : l.toNat ≤ 10) : levelOf? l = some (l.setWidth 4) := if_pos h

theorem levelOf?_none {l : Byte} (h : 10 < l.toNat) : levelOf? l = none := if_neg (by omega)

/-- A LEVEL that was accepted is at most 10. -/
theorem levelOf?_le {l : Byte} {v : BitVec 4} (h : levelOf? l = some v) : v.toNat ≤ 10 := by
  unfold levelOf? at h
  split at h
  · cases h
    rw [BitVec.toNat_setWidth]
    exact (Nat.mod_le _ _).trans ‹_›
  · cases h

theorem centOf?_some {c : Byte} (h : -100 ≤ c.toInt ∧ c.toInt ≤ 100) : centOf? c = some c := if_pos h

theorem centOf?_none {c : Byte} (h : ¬(-100 ≤ c.toInt ∧ c.toInt ≤ 100)) : centOf? c = none := if_neg h

/-- A CENT that was accepted lies in its range. -/
theorem centOf?_range {c v : Byte} (h : centOf? c = some v) : -100 ≤ v.toInt ∧ v.toInt ≤ 100 := by
  unfold centOf? at h
  split at h
  · cases h; assumption
  · cases h

theorem clampNote_toNat (n : Nat) : (clampNote n).toNat = min n 127 := by
  unfold clampNote
  rw [BitVec.toNat_ofNat]
  omega

/-! ### A legal operand, or the exception -/

@[simp] theorem withOperand_some {α : Type} (a : α) (s : State) (f : α → Result) :
    withOperand (some a) s f = f a := rfl

@[simp] theorem withOperand_none {α : Type} (s : State) (f : α → Result) :
    withOperand none s f = .next s.setErr := rfl

@[simp] theorem onSlot_three (s : State) (f : Fin 3 → Osc → Result) : onSlot 3#2 s f = .next s.setErr := by
  simp [onSlot]

theorem onSlot_ofNat (k : Fin 3) (s : State) (f : Fin 3 → Osc → Result) :
    onSlot (BitVec.ofNat 2 k.val) s f = f k s.arch.osc[k] := by
  simp [onSlot, slotOf?_ofNat]

/-- What a slot command does: the exception for K = 3, else its effect on the slot K names. -/
theorem onSlot_cases (k : SlotSel) (s : State) (f : Fin 3 → Osc → Result) :
    (k = 3#2 ∧ onSlot k s f = .next s.setErr) ∨
    ∃ j : Fin 3, k = BitVec.ofNat 2 j.val ∧ onSlot k s f = f j s.arch.osc[j] := by
  rcases slotOf?_cases k with ⟨rfl, -⟩ | ⟨j, rfl, -⟩
  · exact .inl ⟨rfl, onSlot_three s f⟩
  · exact .inr ⟨j, rfl, onSlot_ofNat j s f⟩

/-- What a command with a checked operand does, when it is known that its effect completes. -/
theorem withOperand_next {α : Type} {v : Option α} {s t : State} {f : α → Result}
    (h : withOperand v s f = .next t) : (v = none ∧ t = s.setErr) ∨ ∃ a, v = some a ∧ f a = .next t := by
  cases v with
  | none => cases h; exact .inl ⟨rfl, rfl⟩
  | some a => exact .inr ⟨a, rfl, h⟩

/-! ### The ports -/

theorem takeCommand?_nil {s : State} (h : s.cmdPort = []) : s.takeCommand? = none := by
  simp [State.takeCommand?, h]

theorem takeCommand?_cons {s : State} {w : Word} {rest : List Word} (h : s.cmdPort = w :: rest) :
    s.takeCommand? = some (w, { s with cmdPort := rest }) := by
  simp [State.takeCommand?, h]

theorem answer_eq (s : State) (v : Word) : answer s v = .next (s.respond v) := rfl

theorem raiseIllegal_eq (s : State) : raiseIllegal s = .next s.setErr := rfl

end Sys2Proof.Machine
end

