-- ==== Sys2Proof/Laws/Exec.lean ====
section
/-!
SUPPORT. The meanings, once: what each OSC_* command does on a slot, and `exec_effect`, which says everything a command can
do to the state. Proofs about all commands go through `exec_effect` and do not unfold `exec`.
-/

namespace Sys2Proof.Machine

/-! ### The slot commands on slot `j` -/

theorem exec_oscSetWave (j : Fin 3) (v : Wave) (s : State) :
    exec (.oscSetWave (BitVec.ofNat 2 j.val) v.code) s = .next (s.setOsc j { s.arch.osc[j] with wave := v }) := by
  simp only [exec, execOscSetWave, onSlot_ofNat, Wave.ofCode?_code, withOperand_some]

theorem exec_oscSetLevel (j : Fin 3) {l : Byte} (h : l.toNat ≤ 10) (s : State) :
    exec (.oscSetLevel (BitVec.ofNat 2 j.val) l) s =
      .next (s.setOsc j { s.arch.osc[j] with level := l.setWidth 4 }) := by
  simp only [exec, execOscSetLevel, onSlot_ofNat, levelOf?_some h, withOperand_some]

theorem exec_oscSetCent (j : Fin 3) {c : Byte} (h : -100 ≤ c.toInt ∧ c.toInt ≤ 100) (s : State) :
    exec (.oscSetCent (BitVec.ofNat 2 j.val) c) s = .next (s.setOsc j { s.arch.osc[j] with cent := c }) := by
  simp only [exec, execOscSetCent, onSlot_ofNat, centOf?_some h, withOperand_some]

theorem exec_oscSetSemi (j : Fin 3) (c : Byte) (s : State) :
    exec (.oscSetSemi (BitVec.ofNat 2 j.val) c) s = .next (s.setOsc j { s.arch.osc[j] with semi := c }) := by
  simp only [exec, execOscSetSemi, onSlot_ofNat]

theorem exec_oscGetWave (j : Fin 3) (s : State) :
    exec (.oscGetWave (BitVec.ofNat 2 j.val)) s = .next (s.respond (zext32 s.arch.osc[j].wave.code)) := by
  simp only [exec, execOscGetWave, onSlot_ofNat, answer]

theorem exec_oscGetLevel (j : Fin 3) (s : State) :
    exec (.oscGetLevel (BitVec.ofNat 2 j.val)) s = .next (s.respond (zext32 s.arch.osc[j].level)) := by
  simp only [exec, execOscGetLevel, onSlot_ofNat, answer]

theorem exec_oscGetCent (j : Fin 3) (s : State) :
    exec (.oscGetCent (BitVec.ofNat 2 j.val)) s = .next (s.respond (sext32 s.arch.osc[j].cent)) := by
  simp only [exec, execOscGetCent, onSlot_ofNat, answer]

theorem exec_oscGetSemi (j : Fin 3) (s : State) :
    exec (.oscGetSemi (BitVec.ofNat 2 j.val)) s = .next (s.respond (sext32 s.arch.osc[j].semi)) := by
  simp only [exec, execOscGetSemi, onSlot_ofNat, answer]

theorem exec_oscGetInc (j : Fin 3) (n : Byte) (s : State) :
    exec (.oscGetInc (BitVec.ofNat 2 j.val) n) s = .next (s.respond (inc s.arch.osc[j] n.toNat)) := by
  simp only [exec, execOscGetInc, onSlot_ofNat, answer]

/-! ### The fill -/

theorem exec_mixFill_silent {s : State} (h : s.arch.curNote = 0#7) (n : Half) :
    exec (.mixFill n) s = .next (s.emitAll (List.replicate n.toNat 0#16)) := by
  simp only [exec, execMixFill, if_pos h]

theorem exec_mixFill_sounding {s : State} (h : s.arch.curNote ≠ 0#7) (n : Half) :
    exec (.mixFill n) s =
      .next ((s.emitAll (fillSamples s.params s.arch n.toNat)).advanceScount n.toNat) := by
  simp only [exec, execMixFill, if_neg h]

/-! ### Everything a command can do -/

/-- The effects a command can have: the exception, nothing, one response word, a legal change of one slot, a change of
CUR_NOTE, a silent or a sounding fill, and a byte for the parser. -/
inductive Effect (i : Instr) (s : State) : State → Prop
  | illegal (h : i.wellFormed = false) : Effect i s s.setErr
  | nothing (h : i = .nop ∨ i = .freqInit) : Effect i s s
  | answer (v : Word) (h : i.isRead = true) (hwf : i.wellFormed = true) : Effect i s (s.respond v)
  | slot (k : Fin 3) (o : Osc) (h : i.isOscSet = true) (hwf : i.wellFormed = true)
      (hr : s.arch.osc[k].inRange → o.inRange) : Effect i s (s.setOsc k o)
  | note (n : BitVec 7) (h : i.isSetNote = true ∨ i = .noteLatch) : Effect i s (s.setCurNote n)
  | silence (n : Half) (h : i = .mixFill n) (hn : s.arch.curNote = 0#7) :
      Effect i s (s.emitAll (List.replicate n.toNat 0#16))
  | fill (n : Half) (h : i = .mixFill n) (hn : s.arch.curNote ≠ 0#7) :
      Effect i s ((s.emitAll (fillSamples s.params s.arch n.toNat)).advanceScount n.toNat)
  | midi (b : Byte) (h : i = .midiByte b) : Effect i s { s with arch := s.arch.midiByte b }

/-- An OSC_* command with K = 3 takes the exception. -/
theorem exec_slotThree (i : Instr) (s : State) (ht : i.opcode.takesSlot = true) (h : i.slot = 3#2) :
    exec i s = .next s.setErr := by
  cases i <;> simp only [Instr.opcode, Opcode.takesSlot, Instr.slot, Bool.false_eq_true] at ht h <;> subst h <;>
    simp only [exec, execOscSetWave, execOscSetLevel, execOscSetCent, execOscSetSemi, execOscGetWave, execOscGetLevel,
      execOscGetCent, execOscGetSemi, execOscGetInc, onSlot_three]

/-- A command completes, with one of the effects of `Effect`. -/
theorem exec_effect (i : Instr) (s : State) : ∃ t, exec i s = .next t ∧ Effect i s t := by
  cases i with
  | nop => exact ⟨s, rfl, .nothing (.inl rfl)⟩
  | freqInit => exact ⟨s, rfl, .nothing (.inr rfl)⟩
  | freqRead v => exact ⟨_, rfl, .answer _ rfl rfl⟩
  | mixGetNote => exact ⟨_, rfl, .answer _ rfl rfl⟩
  | mixGetActive => exact ⟨_, rfl, .answer _ rfl rfl⟩
  | mixGetScount => exact ⟨_, rfl, .answer _ rfl rfl⟩
  | midiGetNote => exact ⟨_, rfl, .answer _ rfl rfl⟩
  | getStatus => exact ⟨_, rfl, .answer _ rfl rfl⟩
  | mixSetNote n => exact ⟨_, rfl, .note _ (.inl rfl)⟩
  | noteLatch => exact ⟨_, rfl, .note _ (.inr rfl)⟩
  | midiByte b => exact ⟨_, rfl, .midi b rfl⟩
  | mixFill n =>
    by_cases h : s.arch.curNote = 0#7
    · exact ⟨_, exec_mixFill_silent h n, .silence n rfl h⟩
    · exact ⟨_, exec_mixFill_sounding h n, .fill n rfl h⟩
  | oscGetWave k =>
    rcases slotOf?_cases k with ⟨rfl, -⟩ | ⟨j, rfl, -⟩
    · exact ⟨_, exec_slotThree _ s rfl rfl, .illegal rfl⟩
    · exact ⟨_, exec_oscGetWave j s, .answer _ rfl (slotLegal_ofNat j)⟩
  | oscGetLevel k =>
    rcases slotOf?_cases k with ⟨rfl, -⟩ | ⟨j, rfl, -⟩
    · exact ⟨_, exec_slotThree _ s rfl rfl, .illegal rfl⟩
    · exact ⟨_, exec_oscGetLevel j s, .answer _ rfl (slotLegal_ofNat j)⟩
  | oscGetCent k =>
    rcases slotOf?_cases k with ⟨rfl, -⟩ | ⟨j, rfl, -⟩
    · exact ⟨_, exec_slotThree _ s rfl rfl, .illegal rfl⟩
    · exact ⟨_, exec_oscGetCent j s, .answer _ rfl (slotLegal_ofNat j)⟩
  | oscGetSemi k =>
    rcases slotOf?_cases k with ⟨rfl, -⟩ | ⟨j, rfl, -⟩
    · exact ⟨_, exec_slotThree _ s rfl rfl, .illegal rfl⟩
    · exact ⟨_, exec_oscGetSemi j s, .answer _ rfl (slotLegal_ofNat j)⟩
  | oscGetInc k n =>
    rcases slotOf?_cases k with ⟨rfl, -⟩ | ⟨j, rfl, -⟩
    · exact ⟨_, exec_slotThree _ s rfl rfl, .illegal rfl⟩
    · exact ⟨_, exec_oscGetInc j n s, .answer _ rfl (slotLegal_ofNat j)⟩
  | oscSetSemi k v =>
    rcases slotOf?_cases k with ⟨rfl, -⟩ | ⟨j, rfl, -⟩
    · exact ⟨_, exec_slotThree _ s rfl rfl, .illegal rfl⟩
    · exact ⟨_, exec_oscSetSemi j v s, .slot j _ rfl (slotLegal_ofNat j) fun h => h⟩
  | oscSetWave k c =>
    rcases slotOf?_cases k with ⟨rfl, -⟩ | ⟨j, rfl, -⟩
    · exact ⟨_, exec_slotThree _ s rfl rfl, .illegal rfl⟩
    · rcases Wave.ofCode?_cases c with ⟨rfl, -⟩ | ⟨v, rfl, -⟩
      · refine ⟨_, ?_, .illegal (by simp [Instr.wellFormed, waveCodeLegal])⟩
        simp only [exec, execOscSetWave, onSlot_ofNat, Wave.ofCode?_three, withOperand_none]
      · refine ⟨_, exec_oscSetWave j v s, .slot j _ rfl ?_ fun h => h⟩
        cases v <;> simp [Instr.wellFormed, slotLegal_ofNat, waveCodeLegal, Wave.code]
  | oscSetLevel k l =>
    rcases slotOf?_cases k with ⟨rfl, -⟩ | ⟨j, rfl, -⟩
    · exact ⟨_, exec_slotThree _ s rfl rfl, .illegal rfl⟩
    · by_cases hl : l.toNat ≤ 10
      · exact ⟨_, exec_oscSetLevel j hl s, .slot j _ rfl (by simp [Instr.wellFormed, slotLegal_ofNat, levelLegal, hl])
          fun h => ⟨levelOf?_le (levelOf?_some hl), h.2⟩⟩
      · refine ⟨_, ?_, .illegal (by simp [Instr.wellFormed, levelLegal]; omega)⟩
        simp only [exec, execOscSetLevel, onSlot_ofNat, levelOf?_none (show 10 < l.toNat by omega), withOperand_none]
  | oscSetCent k c =>
    rcases slotOf?_cases k with ⟨rfl, -⟩ | ⟨j, rfl, -⟩
    · exact ⟨_, exec_slotThree _ s rfl rfl, .illegal rfl⟩
    · by_cases hc : -100 ≤ c.toInt ∧ c.toInt ≤ 100
      · exact ⟨_, exec_oscSetCent j hc s, .slot j _ rfl (by simp [Instr.wellFormed, slotLegal_ofNat, centLegal, hc])
          fun h => ⟨h.1, hc⟩⟩
      · refine ⟨_, ?_, .illegal (by simp only [Instr.wellFormed, centLegal, hc, decide_false, Bool.and_false])⟩
        simp only [exec, execOscSetCent, onSlot_ofNat, centOf?_none hc, withOperand_none]

/-- If a command answers a next state, that state is one of its effects. -/
theorem effect_of_exec {i : Instr} {s t : State} (h : exec i s = .next t) : Effect i s t := by
  obtain ⟨u, hu, he⟩ := exec_effect i s
  rw [hu] at h
  cases h
  exact he

end Sys2Proof.Machine
end

