-- ==== Sys2Proof/Laws/Midi.lean ====
section
/-!
SUPPORT. The parser and the tracker: the byte classes by their ranges, what the scan of the counters finds, and the frame of
a byte.
-/

namespace Sys2Proof.Machine

/-! ### The byte classes -/

theorem byteClass_realTime : ∀ b : Byte, byteClass b = .realTime ↔ b.toNat = 0xFE ∨ b.toNat = 0xFF := by
  decide +kernel

theorem byteClass_noteOn : ∀ b : Byte, byteClass b = .noteOn ↔ 0x90 ≤ b.toNat ∧ b.toNat ≤ 0x9F := by
  decide +kernel

theorem byteClass_noteOff : ∀ b : Byte, byteClass b = .noteOff ↔ 0x80 ≤ b.toNat ∧ b.toNat ≤ 0x8F := by
  decide +kernel

theorem byteClass_other :
    ∀ b : Byte, byteClass b = .other ↔ b.toNat ≤ 0x7F ∨ (0xA0 ≤ b.toNat ∧ b.toNat ≤ 0xFD) := by
  decide +kernel

/-! ### The sounding note -/

/-- What the scan finds: no value above the best so far, or the first of the largest values. -/
theorem soundingScan_cases (l : List Word) (i best idx : Nat) :
    (∀ c ∈ l, c.toNat ≤ best) ∧ soundingScan l i best idx = idx ∨
    ∃ k, ∃ h : k < l.length, soundingScan l i best idx = i + k ∧ best < l[k].toNat ∧
      (∀ j (hj : j < l.length), l[j].toNat ≤ l[k].toNat) ∧ ∀ j (hj : j < k), l[j].toNat < l[k].toNat := by
  induction l generalizing i best idx with
  | nil => left; simp [soundingScan]
  | cons c rest ih =>
    unfold soundingScan
    split
    · next hc =>
      right
      rcases ih (i+1) c.toNat i with ⟨h1, h2⟩ | ⟨k, hk, h1, h2, h3, h4⟩
      · refine ⟨0, by simp, by simpa using h2, by simpa using hc, fun j hj => ?_, fun j hj => by omega⟩
        rcases j with _ | j
        · simp
        · simpa using h1 _ (List.getElem_mem _)
      · refine ⟨k+1, by simpa using hk, by rw [h1]; omega, by simp; omega, fun j hj => ?_, fun j hj => ?_⟩
        · rcases j with _ | j
          · simp; omega
          · simpa using h3 j (by simpa using hj)
        · rcases j with _ | j
          · simpa using h2
          · simpa using h4 j (by omega)
    · next hc =>
      rcases ih (i+1) best idx with ⟨h1, h2⟩ | ⟨k, hk, h1, h2, h3, h4⟩
      · left
        refine ⟨fun d hd => ?_, h2⟩
        rcases List.mem_cons.1 hd with rfl | hd
        · omega
        · exact h1 d hd
      · right
        refine ⟨k+1, by simpa using hk, by rw [h1]; omega, by simpa using h2, fun j hj => ?_, fun j hj => ?_⟩
        · rcases j with _ | j
          · simp; omega
          · simpa using h3 j (by simpa using hj)
        · rcases j with _ | j
          · simp; omega
          · simpa using h4 j (by omega)

/-- The sounding note: 0 with every counter 0, or the first of the largest counters. -/
theorem sounding_cases (a : Arch) : ((∀ i : Fin 128, a.ctr[i] = 0#32) ∧ a.sounding = 0) ∨
   ∃ k : Fin 128, a.sounding = k.val ∧ 0 < a.ctr[k].toNat ∧ (∀ j : Fin 128, a.ctr[j].toNat ≤ a.ctr[k].toNat) ∧
      ∀ j : Fin 128, j < k → a.ctr[j].toNat < a.ctr[k].toNat := by
  rcases soundingScan_cases a.ctr.toList 0 0 0 with ⟨h1, h2⟩ | ⟨k, hk, h1, h2, h3, h4⟩
  · left
    refine ⟨fun i => ?_, h2⟩
    have := h1 a.ctr[i] (by simp [Vector.mem_toList_iff])
    apply BitVec.eq_of_toNat_eq; simpa using this
  · right
    have hk' : k < 128 := by simpa using hk
    refine ⟨⟨k, hk'⟩, by simpa [Arch.sounding] using h1, by simpa using h2, fun j => ?_, fun j hj => ?_⟩
    · simpa using h3 j.val (by simp)
    · simpa using h4 j.val hj

/-- The sounding note is an index of the counter table. -/
theorem sounding_lt (a : Arch) : a.sounding < 128 := by
  rcases sounding_cases a with ⟨-, h⟩ | ⟨k, h, -⟩ <;> omega

/-- A counter above all others names the sounding note. -/
theorem sounding_eq {a : Arch} (k : Fin 128) (hp : 0 < a.ctr[k].toNat) (h : ∀ j : Fin 128, j ≠ k → a.ctr[j].toNat < a.ctr[k].toNat) : a.sounding = k.val := by
  rcases sounding_cases a with ⟨h0, -⟩ | ⟨m, hm, -, h3, -⟩
  · rw [h0 k] at hp; simp at hp
  · by_cases hmk : m = k
    · rw [hm, hmk]
    · have := h m hmk; have := h3 k; omega

/-! ### A byte -/

theorem exec_midiByte (b : Byte) (s : State) : execMidiByte b s = .next { s with arch := s.arch.midiByte b } := rfl

theorem nextActivation_toNat (act : Word) : (nextActivation act).toNat = min (act.toNat + 1) (2 ^ 32 - 1) := by
  simp [nextActivation]

/-- A note-on with velocity 0 clears the counter. -/
theorem noteOn_zero (a : Arch) {n : Byte} (h : n.toNat < 128) : a.noteOn n 0#8 = a.setCtr ⟨n.toNat, h⟩ 0#32 := by
  unfold Arch.noteOn Arch.onNote
  rw [dif_pos h]
  rfl

/-- A note-on with another velocity writes the next activation. -/
theorem noteOn_pos (a : Arch) {n v : Byte} (h : n.toNat < 128) (hv : v ≠ 0#8) :
    a.noteOn n v = ({ a with act := nextActivation a.act } : Arch).setCtr ⟨n.toNat, h⟩ (nextActivation a.act) := by
  unfold Arch.noteOn Arch.onNote
  rw [dif_pos h]
  exact if_neg hv

/-- A note-off clears the counter. -/
theorem noteOff_eq_setCtr (a : Arch) {n : Byte} (h : n.toNat < 128) :
    a.noteOff n = a.setCtr ⟨n.toNat, h⟩ 0#32 := by
  unfold Arch.noteOff Arch.onNote
  rw [dif_pos h]

/-- A note byte of 128 or more names no counter. -/
theorem note_out_of_table (a : Arch) {n : Byte} (h : 128 ≤ n.toNat) (v : Byte) :
    a.noteOn n v = a ∧ a.noteOff n = a := by
  unfold Arch.noteOn Arch.noteOff Arch.onNote
  rw [dif_neg (by omega), dif_neg (by omega)]
  exact ⟨rfl, rfl⟩

/-- A note-on changes nothing but the counters and ACT. -/
theorem noteOn_frame (a : Arch) (n v : Byte) :
    (a.noteOn n v).osc = a.osc ∧ (a.noteOn n v).curNote = a.curNote ∧ (a.noteOn n v).scount = a.scount ∧
      (a.noteOn n v).err = a.err ∧ (a.noteOn n v).mst = a.mst ∧ (a.noteOn n v).mnote = a.mnote := by
  unfold Arch.noteOn Arch.onNote
  split
  · split <;> exact ⟨rfl, rfl, rfl, rfl, rfl, rfl⟩
  · exact ⟨rfl, rfl, rfl, rfl, rfl, rfl⟩

/-- A note-off changes nothing but the counters. -/
theorem noteOff_frame (a : Arch) (n : Byte) :
    (a.noteOff n).osc = a.osc ∧ (a.noteOff n).curNote = a.curNote ∧ (a.noteOff n).scount = a.scount ∧
      (a.noteOff n).err = a.err ∧ (a.noteOff n).mst = a.mst ∧ (a.noteOff n).mnote = a.mnote ∧
      (a.noteOff n).act = a.act := by
  unfold Arch.noteOff Arch.onNote
  split <;> exact ⟨rfl, rfl, rfl, rfl, rfl, rfl, rfl⟩

/-- A byte changes nothing outside the tracker. -/
theorem midiByte_frame (a : Arch) (b : Byte) : (a.midiByte b).osc = a.osc ∧ (a.midiByte b).curNote = a.curNote ∧ (a.midiByte b).scount = a.scount ∧ (a.midiByte b).err = a.err := by
  obtain ⟨n1, n2, n3, n4, -⟩ := noteOn_frame a a.mnote b
  obtain ⟨f1, f2, f3, f4, -⟩ := noteOff_frame a a.mnote
  unfold Arch.midiByte Arch.dataByte
  split
  · simp
  · simp
  · simp
  · split <;> simp [n1, n2, n3, n4, f1, f2, f3, f4]

end Sys2Proof.Machine
end

