-- ==== Sys2Proof/Laws/Oscillator.lean ====
section
/-!
SUPPORT. The arithmetic of the ROM and the oscillators: the range of the table's increments, where the interpolation lies,
and what a contribution cannot exceed.
-/

namespace Sys2Proof.Machine

/-! ### The table -/

/-- A decoded ROM word is a nonzero 32-bit increment. -/
theorem dec_rom_bounds : ∀ i < 128, 0 < dec (rom i) ∧ dec (rom i) < 2^32 := by decide +kernel

/-- The lookup gives a 32-bit increment. -/
theorem freqInc_bounds (e : Int) : 0 ≤ (freqInc e : Int) ∧ (freqInc e : Int) < 2^32 := by
  refine ⟨by omega, ?_⟩
  unfold freqInc; split
  · have := (dec_rom_bounds e.toNat (by omega)).2; omega
  · norm_num

/-! ### The interpolation -/

/-- The interpolation lies between the base and the neighbour. -/
theorem interpolate_between (b n c : Int) (h : -100 ≤ c) (h' : c ≤ 100) : min b n ≤ interpolate b n c ∧ interpolate b n c ≤ max b n := by
  unfold interpolate
  have hc : (c.natAbs : Int) ≤ 100 := by omega
  have hc0 : (0 : Int) ≤ c.natAbs := by omega
  rcases Int.le_total b n with hbn | hbn
  · rw [Int.tdiv_eq_ediv_of_nonneg (mul_nonneg (by omega) hc0), min_eq_left hbn, max_eq_right hbn]
    have h1 : 0 ≤ (n - b) * (c.natAbs : Int) / 100 := Int.ediv_nonneg (mul_nonneg (by omega) hc0) (by norm_num)
    have h2 : (n - b) * (c.natAbs : Int) / 100 ≤ n - b := by
      apply Int.ediv_le_of_le_mul (by norm_num)
      exact mul_le_mul_of_nonneg_left hc (by omega)
    omega
  · have : (n - b) * (c.natAbs : Int) = -((b - n) * c.natAbs) := by ring
    rw [this, Int.neg_tdiv, Int.tdiv_eq_ediv_of_nonneg (mul_nonneg (by omega) hc0), min_eq_right hbn, max_eq_left hbn]
    have h1 : 0 ≤ (b - n) * (c.natAbs : Int) / 100 := Int.ediv_nonneg (mul_nonneg (by omega) hc0) (by norm_num)
    have h2 : (b - n) * (c.natAbs : Int) / 100 ≤ b - n := by
      apply Int.ediv_le_of_le_mul (by norm_num)
      exact mul_le_mul_of_nonneg_left hc (by omega)
    omega

/-- `Inc` as an exact integer fits 32 bits for a slot that holds legal values. -/
theorem incInt_bounds (o : Osc) (note : Nat) (h : o.inRange) : 0 ≤ incInt o note ∧ incInt o note < 2 ^ 32 := by
  unfold incInt
  split
  · norm_num
  · have hb := freqInc_bounds ((note : Int) + o.semi.toInt)
    simp only
    split
    · exact hb
    · obtain ⟨h1, h2⟩ := interpolate_between (freqInc ((note : Int) + o.semi.toInt))
        (freqInc (if 0 < o.cent.toInt then (note : Int) + o.semi.toInt + 1 else (note : Int) + o.semi.toInt - 1))
        o.cent.toInt h.2.1 h.2.2
      have hn := freqInc_bounds
        (if 0 < o.cent.toInt then (note : Int) + o.semi.toInt + 1 else (note : Int) + o.semi.toInt - 1)
      exact ⟨le_trans (le_min hb.1 hn.1) h1, lt_of_le_of_lt h2 (max_lt hb.2 hn.2)⟩

/-- Nothing is lost when `Inc` is narrowed to 32 bits. -/
theorem inc_toNat (o : Osc) (note : Nat) (h : o.inRange) : ((inc o note).toNat : Int) = incInt o note := by
  obtain ⟨a, b⟩ := incInt_bounds o note h
  unfold inc
  rw [BitVec.toNat_ofInt]
  rw [Int.toNat_of_nonneg (Int.emod_nonneg _ (by norm_num)), Int.emod_eq_of_lt a (by exact_mod_cast b)]

/-! ### The contribution -/

theorem phase_toNat (i n : Word) : (phase i n).toNat = n.toNat * i.toNat % 2 ^ 32 := by simp [phase]

/-- A contribution does not exceed its peak. -/
theorem contrib_le (p : Params) (o : Osc) (i n : Word) (c : Nat) : contrib p o i n c ≤ peak p o.level c := by
  have hlt := (phase i n).isLt
  unfold contrib
  split
  · exact Nat.zero_le _
  · unfold squareOut
    split <;> omega
  · rw [sawOut, Nat.shiftRight_eq_div_pow]
    apply Nat.div_le_of_le_mul
    rw [mul_comm]
    exact Nat.mul_le_mul_right _ hlt.le

/-- `c` peaks of legal levels together do not exceed P_MAX_AMPLITUDE. -/
theorem peak_le (p : Params) (l : BitVec 4) (c : Nat) (h : l.toNat ≤ 10) : c * peak p l c ≤ p.maxAmplitude.toNat := by
  unfold peak
  rcases Nat.eq_zero_or_pos c with rfl | hc
  · simp
  · calc c * (p.maxAmplitude.toNat * l.toNat / (10 * c)) ≤ c * (p.maxAmplitude.toNat * 10 / (10 * c)) := by
          apply Nat.mul_le_mul_left; apply Nat.div_le_div_right; exact Nat.mul_le_mul_left _ h
      _ = c * (p.maxAmplitude.toNat / c) := by rw [mul_comm _ 10, Nat.mul_div_mul_left _ _ (by norm_num)]
      _ ≤ p.maxAmplitude.toNat := Nat.mul_div_le _ _

end Sys2Proof.Machine
end

