-- ==== Sys2Proof/Laws/Mixer.lean ====
section
/-!
SUPPORT. The mixer: the active count as a sum over the slots, and the samples of a fill, their number and how a fill is cut.
-/

namespace Sys2Proof.Machine

/-- The three slots in order. -/
theorem osc_toList (v : Vector Osc 3) : v.toList = [v[0], v[1], v[2]] := by
  apply List.ext_getElem
  · simp
  · intro i h1 h2
    simp at h1
    have : i = 0 ∨ i = 1 ∨ i = 2 := by omega
    rcases this with rfl | rfl | rfl <;> simp

/-- The active count, slot by slot. -/
theorem activeCount_eq_sum (a : Arch) :
    a.activeCount = (if a.osc[0].active then 1 else 0) + (if a.osc[1].active then 1 else 0)
      + (if a.osc[2].active then 1 else 0) := by
  unfold Arch.activeCount
  rw [osc_toList]
  simp only [List.countP_cons, List.countP_nil]
  omega

theorem activeCount_le (a : Arch) : a.activeCount ≤ 3 := by
  rw [activeCount_eq_sum]
  split_ifs <;> omega

@[simp] theorem fillSamples_length (p : Params) (a : Arch) (n : Nat) : (fillSamples p a n).length = n := by
  simp [fillSamples]

/-- A fill cut in two: the second part goes on at the index the first one reached. -/
theorem fillSamples_add (p : Params) (a : Arch) (m n : Nat) : fillSamples p a (m + n) = fillSamples p a m ++ fillSamples p { a with scount := a.scount + BitVec.ofNat 32 m } n := by
  unfold fillSamples
  rw [List.range_add, List.map_append, List.map_map]
  congr 1
  apply List.map_congr_left
  intro i _
  simp only [Function.comp_apply, Arch.increments, Arch.activeCount]
  congr 1
  rw [BitVec.add_assoc]; congr 1
  apply BitVec.eq_of_toNat_eq; simp

end Sys2Proof.Machine
end

