-- ==== Sys2Proof/Laws/PerInstr.lean ====
section
/-!
SUPPORT. Facts about every command as syntax, one lemma per constructor (LAWS.json).
-/

namespace Sys2Proof.Laws.EncodedForm

/-- The command word of a command has the form of its row in R76's table (the word and the row's mask give the row's
match), and its fields are the command's own (R70). -/
def Statement (i : Instr) : Prop :=
  encode i &&& i.opcode.maskWord = i.opcode.matchWord ∧
  opField (encode i) = i.opcode.code ∧ resField (encode i) = 0#6 ∧
  kField (encode i) = i.slot ∧ immField (encode i) = i.imm

theorem of_mask {i : Instr} (h : encode i &&& i.opcode.maskWord = i.opcode.matchWord) : Statement i :=
  ⟨h, by simp [encode], by simp [encode], by simp [encode], by simp [encode]⟩

/-- The mask of a row, bit by bit. -/
theorem and_mask_u8 (op : BitVec 8) (v : Byte) :
    packWord op 0#2 (v.setWidth 16) &&& 0xFFFFFF00#32 = packWord op 0#2 0#16 := by
  apply BitVec.eq_of_getLsbD_eq
  intro i hi
  have hmask : ∀ i < 32, (0xFFFFFF00#32).getLsbD i = decide (8 ≤ i) := by decide
  simp only [BitVec.getLsbD_and, hmask i hi, packWord, BitVec.getLsbD_append, BitVec.getLsbD_setWidth]
  by_cases h8 : 8 ≤ i
  · by_cases h16 : i < 16
    · simp [h16, BitVec.getLsbD_of_ge v i h8]
    · simp [h8, h16]
  · simp [h8, show i < 16 by omega]

theorem and_mask_u16 (op : BitVec 8) (v : Half) :
    packWord op 0#2 v &&& 0xFFFF0000#32 = packWord op 0#2 0#16 := by
  apply BitVec.eq_of_getLsbD_eq
  intro i hi
  have hmask : ∀ i < 32, (0xFFFF0000#32).getLsbD i = decide (16 ≤ i) := by decide
  simp only [BitVec.getLsbD_and, hmask i hi, packWord, BitVec.getLsbD_append]
  by_cases h16 : i < 16
  · simp [h16, show ¬ 16 ≤ i by omega]
  · simp [h16, show 16 ≤ i by omega]

theorem and_mask_slot_u8 (op : BitVec 8) (k : SlotSel) (v : Byte) :
    packWord op k (v.setWidth 16) &&& 0xFFFCFF00#32 = packWord op 0#2 0#16 := by
  apply BitVec.eq_of_getLsbD_eq
  intro i hi
  have hmask : ∀ i < 32, (0xFFFCFF00#32).getLsbD i = decide (8 ≤ i ∧ i ≠ 16 ∧ i ≠ 17) := by decide
  simp only [BitVec.getLsbD_and, hmask i hi, packWord, BitVec.getLsbD_append, BitVec.getLsbD_setWidth]
  by_cases h16 : i < 16
  · by_cases h8 : 8 ≤ i
    · simp [h16, BitVec.getLsbD_of_ge v i h8]
    · simp [h16, h8]
  · by_cases h18 : i - 16 < 2
    · have : i = 16 ∨ i = 17 := by omega
      rcases this with rfl | rfl <;> simp
    · simp [h16, h18, show 8 ≤ i by omega, show i ≠ 16 by omega, show i ≠ 17 by omega]

theorem nop : Statement .nop := of_mask (by decide)
theorem freqInit : Statement .freqInit := of_mask (by decide)
theorem freqRead (index : Byte) : Statement (.freqRead index) := of_mask (and_mask_u8 0x02#8 index)
theorem oscSetWave (k : SlotSel) (code : BitVec 2) : Statement (.oscSetWave k code) :=
  of_mask (by revert k code; decide)
theorem oscSetLevel (k : SlotSel) (level : Byte) : Statement (.oscSetLevel k level) :=
  of_mask (and_mask_slot_u8 0x11#8 k level)
theorem oscSetCent (k : SlotSel) (cent : Byte) : Statement (.oscSetCent k cent) :=
  of_mask (and_mask_slot_u8 0x12#8 k cent)
theorem oscSetSemi (k : SlotSel) (semi : Byte) : Statement (.oscSetSemi k semi) :=
  of_mask (and_mask_slot_u8 0x13#8 k semi)
theorem oscGetWave (k : SlotSel) : Statement (.oscGetWave k) := of_mask (by revert k; decide)
theorem oscGetLevel (k : SlotSel) : Statement (.oscGetLevel k) := of_mask (by revert k; decide)
theorem oscGetCent (k : SlotSel) : Statement (.oscGetCent k) := of_mask (by revert k; decide)
theorem oscGetSemi (k : SlotSel) : Statement (.oscGetSemi k) := of_mask (by revert k; decide)
theorem oscGetInc (k : SlotSel) (note : Byte) : Statement (.oscGetInc k note) :=
  of_mask (and_mask_slot_u8 0x1C#8 k note)
theorem mixSetNote (note : Byte) : Statement (.mixSetNote note) := of_mask (and_mask_u8 0x20#8 note)
theorem mixFill (n : Half) : Statement (.mixFill n) := of_mask (and_mask_u16 0x21#8 n)
theorem mixGetNote : Statement .mixGetNote := of_mask (by decide)
theorem mixGetActive : Statement .mixGetActive := of_mask (by decide)
theorem mixGetScount : Statement .mixGetScount := of_mask (by decide)
theorem midiByte (b : Byte) : Statement (.midiByte b) := of_mask (and_mask_u8 0x30#8 b)
theorem midiGetNote : Statement .midiGetNote := of_mask (by decide)
theorem noteLatch : Statement .noteLatch := of_mask (by decide)
theorem getStatus : Statement .getStatus := of_mask (by decide)

end Sys2Proof.Laws.EncodedForm
end

