-- ==== Sys2Proof/Laws/Step.lean ====
section
/-!
SUPPORT. What a step can do, once, and how a run over a stream of words is taken apart.
-/

namespace Sys2Proof.Machine

theorem step_nil {s : State} (h : s.cmdPort = []) : step s = .next s := by
  simp [step, takeCommand?_nil h, waitForCommand]

theorem step_cons {s : State} {w : Word} {rest : List Word} (h : s.cmdPort = w :: rest) :
    step s = runWord w { s with cmdPort := rest } := by
  simp [step, takeCommand?_cons h]

theorem runWord_instr {w : Word} {i : Instr} (h : decode w = .instr i) (s : State) : runWord w s = exec i s := by
  simp [runWord, h]

theorem runWord_reject {w : Word} {r : Reject} (h : decode w = .reject r) (s : State) :
    runWord w s = .next s.setErr := by
  simp [runWord, h, raiseIllegal]

/-- Everything a step can do: wait, take an illegal word and set ERR, or take a word and have one of its command's
effects. -/
theorem step_cases (s : State) :
    (s.cmdPort = [] ∧ step s = .next s) ∨
    ∃ w rest, s.cmdPort = w :: rest ∧
      ((∃ r, decode w = .reject r ∧ step s = .next (State.setErr { s with cmdPort := rest })) ∨
        ∃ i t, decode w = .instr i ∧ i.wellFormed = true ∧ step s = .next t ∧
          Effect i { s with cmdPort := rest } t) := by
  rcases hs : s.cmdPort with _ | ⟨w, rest⟩
  · exact .inl ⟨rfl, step_nil hs⟩
  · refine .inr ⟨w, rest, rfl, ?_⟩
    cases hd : decode w with
    | reject r => exact .inl ⟨r, rfl, (step_cons hs).trans (runWord_reject hd _)⟩
    | instr i =>
      obtain ⟨t, ht, he⟩ := exec_effect i { s with cmdPort := rest }
      obtain ⟨_, _, _, _, _, _, hwf⟩ := decode_eq_instr hd
      exact .inr ⟨i, t, rfl, hwf, ((step_cons hs).trans (runWord_instr hd _)).trans ht, he⟩

/-! ### A command does not see the words that wait -/

/-- An outcome's next state with other words waiting on the command port. -/
def withPort (q : List Word) (r : Result) : Result :=
  match r with
  | .next t => .next { t with cmdPort := q }
  | .fault f => .fault f
  | .refused f => .refused f

theorem onSlot_withPort (k : SlotSel) (s : State) (q : List Word) (f g : Fin 3 → Osc → Result)
    (h : ∀ j o, f j o = withPort q (g j o)) :
    onSlot k { s with cmdPort := q } f = withPort q (onSlot k s g) := by
  rcases slotOf?_cases k with ⟨rfl, -⟩ | ⟨j, rfl, -⟩
  · simp only [onSlot_three]
    rfl
  · simp only [onSlot_ofNat, h]

theorem withOperand_withPort {α : Type} (v : Option α) (s : State) (q : List Word) (f g : α → Result)
    (h : ∀ a, f a = withPort q (g a)) :
    withOperand v { s with cmdPort := q } f = withPort q (withOperand v s g) := by
  cases v with
  | none => rfl
  | some a => exact h a

/-- A command reads and writes no word that waits on the command port. -/
theorem exec_withPort (i : Instr) (s : State) (q : List Word) :
    exec i { s with cmdPort := q } = withPort q (exec i s) := by
  cases i with
  | oscSetWave k c =>
    simp only [exec, execOscSetWave]
    apply onSlot_withPort
    intro j o
    apply withOperand_withPort
    exact fun v => rfl
  | oscSetLevel k l =>
    simp only [exec, execOscSetLevel]
    apply onSlot_withPort
    intro j o
    apply withOperand_withPort
    exact fun v => rfl
  | oscSetCent k c =>
    simp only [exec, execOscSetCent]
    apply onSlot_withPort
    intro j o
    apply withOperand_withPort
    exact fun v => rfl
  | oscSetSemi k c =>
    simp only [exec, execOscSetSemi]
    apply onSlot_withPort
    exact fun j o => rfl
  | oscGetWave k =>
    simp only [exec, execOscGetWave]
    apply onSlot_withPort
    exact fun j o => rfl
  | oscGetLevel k =>
    simp only [exec, execOscGetLevel]
    apply onSlot_withPort
    exact fun j o => rfl
  | oscGetCent k =>
    simp only [exec, execOscGetCent]
    apply onSlot_withPort
    exact fun j o => rfl
  | oscGetSemi k =>
    simp only [exec, execOscGetSemi]
    apply onSlot_withPort
    exact fun j o => rfl
  | oscGetInc k n =>
    simp only [exec, execOscGetInc]
    apply onSlot_withPort
    exact fun j o => rfl
  | mixFill n =>
    by_cases h : s.arch.curNote = 0#7
    · simp only [exec, execMixFill, h, if_true]
      rfl
    · simp only [exec, execMixFill, h, if_false]
      rfl
  | nop => rfl
  | freqInit => rfl
  | freqRead v => rfl
  | mixSetNote n => rfl
  | mixGetNote => rfl
  | mixGetActive => rfl
  | mixGetScount => rfl
  | midiByte b => rfl
  | midiGetNote => rfl
  | noteLatch => rfl
  | getStatus => rfl

/-- A command word reads and writes no word that waits behind it. -/
theorem runWord_withPort (w : Word) (s : State) (q : List Word) :
    runWord w { s with cmdPort := q } = withPort q (runWord w s) := by
  cases hd : decode w with
  | instr i => simp only [runWord_instr hd, exec_withPort]
  | reject r => simp only [runWord_reject hd, withPort, State.setErr]

/-- Every command word completes. -/
theorem runWord_next (w : Word) (s : State) : ∃ t, runWord w s = .next t ∧ t.cmdPort = s.cmdPort := by
  cases hd : decode w with
  | instr i =>
    obtain ⟨t, ht, he⟩ := exec_effect i s
    exact ⟨t, (runWord_instr hd s).trans ht, by cases he <;> rfl⟩
  | reject r => exact ⟨_, runWord_reject hd s, rfl⟩

/-! ### Runs over a stream of words -/

/-- One step of a run. -/
theorem run_succ (k : Nat) {s t : State} (h : step s = .next t) :
    Host.Core.run Sys2Proof.core (k + 1) s = Host.Core.run Sys2Proof.core k t := by
  have h' : Sys2Proof.core.step s = .next t := h
  simp only [Host.Core.run, h']

theorem runsTo_nil (s t : State) : s.RunsTo [] t ↔ t = { s with cmdPort := [] } := by
  constructor
  · intro h
    cases h
    rfl
  · rintro rfl
    rfl

/-- A run takes the first word, and runs over the rest from there. -/
theorem runsTo_cons (s u : State) (w : Word) (ws : List Word) :
    s.RunsTo (w :: ws) u ↔ ∃ t, runWord w s = .next t ∧ t.RunsTo ws u := by
  obtain ⟨t, ht, -⟩ := runWord_next w s
  have hstep : step { s with cmdPort := w :: ws } = .next { t with cmdPort := ws } := by
    rw [step_cons (s := { s with cmdPort := w :: ws }) rfl]
    exact (runWord_withPort w s ws).trans (by rw [ht]; rfl)
  have hrun := run_succ ws.length hstep
  constructor
  · intro h
    exact ⟨t, ht, hrun.symm.trans h⟩
  · rintro ⟨t', ht', h⟩
    rw [ht] at ht'
    cases ht'
    exact hrun.trans h

end Sys2Proof.Machine
end

