-- ==== Sys2Proof/Tests/Slice0.lean ====
section
/-!
SUPPORT. The model's own tests. The expected values are those of spec/95_test_vectors.md, of R76's table and of R82's
encodings, none of them the model's own answer. `test_wf_` are the smoke tests of WellFormed.lean; `test_dec_` the words written out
from the spec's encodings; `test_run_` one step each, from reset with one change; `witness_` the states and operands that meet an
obligation's hypotheses, at the ends of their ranges.
-/

namespace Sys2Proof.Tests

-- The proofs here are checked one after another: all at once they ask for a thread each, and for its stack.
set_option Elab.async false

open Sys2Proof.Machine

/-! ### Helpers -/

/-- The next state of an outcome. -/
def after : Result → Option State
  | .next t => some t
  | .fault _ => none
  | .refused _ => none

/-- What an outcome's next state holds, by a view of it. -/
def sees {α : Type} (view : State → α) (r : Result) : Option α := (after r).map view

/-- One step of the reset state on one word. -/
def stepOn (w : Word) : Result := step { State.reset with cmdPort := [w] }

/-- The reset state with its record changed. -/
def changed (f : Arch → Arch) : State := { State.reset with arch := f State.reset.arch }

/-- The reset state with a note set. -/
def noteSet (n : BitVec 7) : State := changed fun a => { a with curNote := n }

/-- The reset state with the parser in a given state, with a given captured byte. -/
def parsing (m : ParserState) (n : Byte) : State := changed fun a => { a with mst := m, mnote := n }

/-- The reset state with slot 0 changed and slots 1 and 2 None, note 60. -/
def oneSlot (o : Osc) : State :=
  changed fun a => { a with curNote := 60#7, osc := #v[o, { a.osc[1] with wave := .none }, { a.osc[2] with wave := .none }] }

/-- A slot of Square at level 10 with a given pitch. -/
def pitched (semi cent : Int) : Osc :=
  { wave := .square, level := 10#4, cent := BitVec.ofInt 8 cent, semi := BitVec.ofInt 8 semi }

/-! ### WellFormed: each check refuses an ill-formed term, and admits the ends of its range -/

theorem test_wf_slot : (Instr.oscGetWave 3#2).wellFormed = false ∧ (Instr.oscGetLevel 3#2).wellFormed = false ∧
    (Instr.oscGetCent 3#2).wellFormed = false ∧ (Instr.oscGetSemi 3#2).wellFormed = false ∧
    (Instr.oscGetInc 3#2 60#8).wellFormed = false ∧ (Instr.oscSetWave 3#2 1#2).wellFormed = false ∧
    (Instr.oscSetLevel 3#2 5#8).wellFormed = false ∧ (Instr.oscSetCent 3#2 5#8).wellFormed = false ∧
    (Instr.oscSetSemi 3#2 5#8).wellFormed = false ∧ (Instr.oscGetWave 2#2).wellFormed = true := by decide

theorem test_wf_wave : (Instr.oscSetWave 0#2 3#2).wellFormed = false ∧ (Instr.oscSetWave 2#2 2#2).wellFormed = true := by
  decide

theorem test_wf_level : (Instr.oscSetLevel 0#2 11#8).wellFormed = false ∧ (Instr.oscSetLevel 0#2 255#8).wellFormed = false ∧
    (Instr.oscSetLevel 0#2 10#8).wellFormed = true := by decide

theorem test_wf_cent : (Instr.oscSetCent 0#2 101#8).wellFormed = false ∧ (Instr.oscSetCent 0#2 0x9B#8).wellFormed = false ∧
    (Instr.oscSetCent 0#2 0x80#8).wellFormed = false ∧ (Instr.oscSetCent 0#2 100#8).wellFormed = true ∧
    (Instr.oscSetCent 0#2 0x9C#8).wellFormed = true := by decide

/-! ### Decoding: words written out from R76 and R82 -/

/-- The words of spec/95_test_vectors.md with no operand. -/
theorem test_dec_no_operand : decode 0x00000000#32 = .instr .nop ∧ decode 0x01000000#32 = .instr .freqInit ∧
    decode 0x28000000#32 = .instr .mixGetNote ∧ decode 0x29000000#32 = .instr .mixGetActive ∧
    decode 0x2A000000#32 = .instr .mixGetScount ∧ decode 0x38000000#32 = .instr .midiGetNote ∧
    decode 0x40000000#32 = .instr .noteLatch ∧ decode 0x48000000#32 = .instr .getStatus := by decide

/-- OP 00000010, RES 000000, K 00, IMM 0000000000111001: FREQ_READ 57. -/
theorem test_dec_freqRead : decode 0b00000010000000000000000000111001#32 = .instr (.freqRead 57#8) := by decide

/-- OP 00010000, K 10, IMM[1:0] 10: OSC_SET_WAVE 2, SAW. OP 00010010, K 00, IMM[7:0] 10011100: OSC_SET_CENT 0, -100. -/
theorem test_dec_oscSet : decode 0b00010000000000100000000000000010#32 = .instr (.oscSetWave 2#2 2#2) ∧
    decode 0x11010005#32 = .instr (.oscSetLevel 1#2 5#8) ∧
    decode 0b00010010000000000000000010011100#32 = .instr (.oscSetCent 0#2 0x9C#8) ∧
    decode 0x130000FF#32 = .instr (.oscSetSemi 0#2 0xFF#8) := by decide

theorem test_dec_oscGet : decode 0x18020000#32 = .instr (.oscGetWave 2#2) ∧ decode 0x19010000#32 = .instr (.oscGetLevel 1#2) ∧
    decode 0x1A020000#32 = .instr (.oscGetCent 2#2) ∧ decode 0x1B000000#32 = .instr (.oscGetSemi 0#2) ∧
    decode 0x1C02003C#32 = .instr (.oscGetInc 2#2 60#8) := by decide

/-- OP 00100001, RES 000000, K 00, IMM 0000000100000000: MIX_FILL 256. -/
theorem test_dec_mix_midi : decode 0x200000C8#32 = .instr (.mixSetNote 200#8) ∧
    decode 0b00100001000000000000000100000000#32 = .instr (.mixFill 256#16) ∧
    decode 0x30000090#32 = .instr (.midiByte 0x90#8) := by decide

/-- Illegal words of spec/95_test_vectors.md and spec/60_exceptions.md, each with its row of R240's table. -/
theorem test_dec_rejects : decode 0x03000000#32 = .reject .unassignedOp ∧ decode 0x00040000#32 = .reject .reservedNonzero ∧
    decode 0x21010000#32 = .reject .slotNonzero ∧ decode 0x02000100#32 = .reject .immNonzero ∧
    decode 0x01000001#32 = .reject .immNonzero ∧ decode 0x1200FFF8#32 = .reject .immNonzero ∧
    decode 0x10000004#32 = .reject .immNonzero ∧ decode 0x18030000#32 = .reject .slotThree ∧
    decode 0x10000003#32 = .reject .waveCodeThree ∧ decode 0x1100000B#32 = .reject .levelRange ∧
    decode 0x12000065#32 = .reject .centRange ∧ decode 0x1200009B#32 = .reject .centRange := by decide

/-- The host's reading of a table word. -/
theorem test_dec_tableWord : decodeTableWord 32 0x1C02003C = some (.oscGetInc 2#2 60#8) ∧
    decodeTableWord 8 0 = some .nop ∧ decodeTableWord 32 0x18030000 = none ∧ decodeTableWord 40 0 = none := by decide

/-- A word placed by the host is what the next step runs. -/
theorem test_run_withFetchWord :
    sees State.responses (step (State.reset.withFetchWord 32 0x0200003C)) = some [0x584D#32] := by decide +kernel

/-! ### One step each (spec/95_test_vectors.md L1 and L2) -/

theorem test_run_nop : sees id (stepOn 0x00000000#32) = some State.reset := by decide +kernel

theorem test_run_freqInit : sees id (stepOn 0x01000000#32) = some State.reset := by decide +kernel

/-- L2.1. -/
theorem test_run_freqRead : sees State.responses (stepOn 0x0200003C#32) = some [0x584D#32] ∧
    sees State.responses (stepOn 0x0200007F#32) = some [0xB234#32] := by decide +kernel

theorem test_run_freqRead_outside : sees State.responses (stepOn 0x02000080#32) = some [0#32] ∧
    sees (fun t => (t.responses, t.arch.err)) (stepOn 0x02000100#32) = some ([], true) := by decide +kernel

/-- L2.2. -/
theorem test_run_oscSetWave : sees (fun t => t.arch.osc[2].wave) (stepOn 0x10020002#32) = some .sawtooth := by decide +kernel

theorem test_run_oscSetWave_illegal :
    sees (fun t => (t.arch.osc[0].wave, t.arch.err)) (stepOn 0x10000003#32) = some (.square, true) := by decide +kernel

theorem test_run_oscSetLevel : sees (fun t => t.arch.osc[0].level) (stepOn 0x11000000#32) = some 0#4 := by decide +kernel

theorem test_run_oscSetLevel_illegal :
    sees (fun t => (t.arch.osc[0].level, t.arch.err)) (stepOn 0x1100000B#32) = some (10#4, true) := by decide +kernel

theorem test_run_oscSetCent : sees (fun t => t.arch.osc[0].cent.toInt) (stepOn 0x1200009C#32) = some (-100) := by
  decide +kernel

theorem test_run_oscSetCent_illegal :
    sees (fun t => (t.arch.osc[0].cent, t.arch.err)) (stepOn 0x1200009B#32) = some (0#8, true) := by decide +kernel

theorem test_run_oscSetSemi : sees (fun t => t.arch.osc[0].semi.toInt) (stepOn 0x130000FF#32) = some (-1) ∧
    sees (fun t => t.arch.osc[0].semi.toInt) (stepOn 0x13000080#32) = some (-128) := by decide +kernel

/-- L1.12. -/
theorem test_run_oscGet : sees State.responses (stepOn 0x18010000#32) = some [1#32] ∧
    sees State.responses (stepOn 0x19010000#32) = some [10#32] ∧
    sees State.responses (stepOn 0x1A020000#32) = some [0xFFFFFFF8#32] := by decide +kernel

/-- L2.2: OSC_SET_SEMI 0, -128, then OSC_GET_SEMI 0. -/
theorem test_run_oscGetSemi : sees State.responses
    (exec (.oscGetSemi 0#2) (changed fun a => { a with osc := a.osc.set 0 { a.osc[0] with semi := 0x80#8 } })) =
      some [0xFFFFFF80#32] := by decide +kernel

/-- L2.3: the default slots at note 60, and the neighbour outside the table at note 128. -/
theorem test_run_oscGetInc : sees State.responses (stepOn 0x1C00003C#32) = some [50962432#32] ∧
    sees State.responses (stepOn 0x1C01003C#32) = some [51204915#32] ∧
    sees State.responses (stepOn 0x1C02003C#32) = some [50733712#32] ∧
    sees State.responses (stepOn 0x1C020080#32) = some [195454566#32] := by decide +kernel

/-- L2.3's single-slot cases. -/
theorem test_run_inc : (inc (pitched 0 100) 60).toNat = 53993472 ∧ (inc (pitched 0 (-100)) 60).toNat = 48103424 ∧
    (inc (pitched 0 100) 127).toNat = 0 ∧ (inc (pitched (-11) 50) 10).toNat = 796288 ∧
    (inc (pitched 12 0) 0).toNat = 0 ∧ (inc (pitched (-128) 0) 200).toNat = 101924864 := by decide +kernel

/-- L1.11. -/
theorem test_run_mixSetNote : sees (fun t => (t.arch.curNote, t.arch.err)) (stepOn 0x200000C8#32) = some (127#7, false) := by
  decide +kernel

/-- L2.5: the sawtooth alone at note 60. -/
theorem test_run_mixFill : sees (fun t => (t.samples, t.arch.scount))
    (exec (.mixFill 12#16) (oneSlot { (pitched 0 0) with wave := .sawtooth })) =
      some ([0#16, 777#16, 1555#16, 2332#16, 3110#16, 3888#16, 4665#16, 5443#16, 6220#16, 6998#16, 7776#16, 8553#16],
        12#32) := by decide +kernel

/-- L2.5: the silent path, and the count that wraps: 16 samples high, 16 low, S from 0xFFFFFFF0 to 0x10. -/
theorem test_run_mixFill_edges : sees (fun t => (t.samples, t.arch.scount)) (stepOn 0x21000004#32) =
      some ([0#16, 0#16, 0#16, 0#16], 0#32) ∧
    sees (fun t => (t.samples, t.arch.scount)) (exec (.mixFill 32#16)
      { oneSlot (pitched 0 0) with arch := { (oneSlot (pitched 0 0)).arch with scount := 0xFFFFFFF0#32 } }) =
      some (List.replicate 16 65535#16 ++ List.replicate 16 0#16, 0x10#32) := by decide +kernel

theorem test_run_mixGet : sees State.responses (exec .mixGetNote (noteSet 60#7)) = some [60#32] ∧
    sees State.responses (stepOn 0x29000000#32) = some [3#32] ∧
    sees State.responses (exec .mixGetActive (oneSlot (pitched 0 0))) = some [1#32] ∧
    sees State.responses (exec .mixGetScount (changed fun a => { a with scount := 256#32 })) = some [256#32] := by
  decide +kernel

/-- L2.6: the velocity byte of 90 3C 40. -/
theorem test_run_midiByte : sees (fun t => (t.arch.mst, t.arch.mnote, t.arch.act, t.arch.ctr[60], t.arch.sounding))
    (exec (.midiByte 0x40#8) (parsing .onVel 60#8)) = some (.idle, 60#8, 1#32, 1#32, 60) := by decide +kernel

/-- L2.6: the note byte 165 is dropped at its velocity, and a real-time byte is ignored in the middle of a message. -/
theorem test_run_midiByte_edges :
    sees (fun t => (t.arch.mst, t.arch.mnote, t.arch.act, t.arch.sounding))
      (exec (.midiByte 0x40#8) (parsing .onVel 165#8)) = some (.idle, 165#8, 0#32, 0) ∧
    sees (fun t => (t.arch.mst, t.arch.mnote)) (exec (.midiByte 0xFE#8) (parsing .onVel 60#8)) = some (.onVel, 60#8) := by
  decide +kernel

/-- L1.6: counters 60: 1 and 64: 2 sound 64. -/
theorem test_run_midiGetNote : sees State.responses (exec .midiGetNote
    (changed fun a => { a with ctr := (a.ctr.set 60 1#32).set 64 2#32, act := 2#32 })) = some [64#32] ∧
    sees State.responses (stepOn 0x38000000#32) = some [0#32] := by decide +kernel

/-- L2.5. -/
theorem test_run_noteLatch : sees (fun t => t.arch.curNote) (exec .noteLatch
      (changed fun a => { a with ctr := a.ctr.set 60 1#32, act := 1#32 })) = some 60#7 ∧
    sees (fun t => t.arch.curNote) (exec .noteLatch (noteSet 60#7)) = some 0#7 := by decide +kernel

/-- R221: ERR in bit 0, and a read does not clear it. -/
theorem test_run_getStatus : sees State.responses (stepOn 0x48000000#32) = some [0#32] ∧
    sees (fun t => (t.responses, t.arch.err)) (exec .getStatus (changed fun a => { a with err := true })) =
      some ([1#32], true) := by decide +kernel

/-- L2.4: the edges of the two generators. -/
theorem test_run_generators : squareOut 65535 0x80000000#32 = 0 ∧ squareOut 65535 0x80000001#32 = 65535 ∧
    sawOut 65535 0xFFFFFFFF#32 = 65534 ∧ peak Params.default 9#4 3 = 19660 ∧ peak Params.default 1#4 2 = 3276 := by
  decide +kernel

/-- R82 and R83: lines of the assembler. -/
theorem test_run_assembler : assembleLine "OSC_SET_CENT 2, -8".toList = some [0x120200F8#32] ∧
    assembleLine "OSC_SET_WAVE 2, SAW".toList = some [0x10020002#32] ∧
    assembleLine "PERIOD 256".toList = some [0x40000000#32, 0x21000100#32] ∧
    assembleLine "OSC_SET_LEVEL 0, 11".toList = none := by decide +kernel

/-! ### Witnesses: states and operands that meet the obligations' hypotheses -/

/-- Notes 60 and 64 held, a velocity byte awaited, the slots at the ends of their ranges, a note set. -/
def busy : State := changed fun a =>
  { a with
    osc := #v[pitched 127 100, pitched (-128) (-100), { wave := .sawtooth, level := 0#4, cent := 0#8, semi := 0#8 }]
    curNote := 127#7, scount := 0xFFFFFFF0#32, ctr := (a.ctr.set 60 1#32).set 64 2#32, act := 2#32, mst := .onVel,
    mnote := 60#8, err := true }

/-- Two counters at the saturated value. -/
def saturated : State := changed fun a =>
  { a with ctr := (a.ctr.set 0 (BitVec.allOnes 32)).set 127 (BitVec.allOnes 32), act := BitVec.allOnes 32 }

/-- One activation below saturation, with every counter off. -/
def belowSaturation : State := changed fun a => { a with act := 0xFFFFFFFE#32 }

theorem busy_inv : busy.Inv :=
  ⟨by decide, by decide +kernel, by decide +kernel, by decide +kernel⟩

theorem saturated_inv : saturated.Inv :=
  ⟨by decide, by decide +kernel, by decide +kernel, by decide +kernel⟩

theorem belowSaturation_inv : belowSaturation.Inv :=
  ⟨by decide, by decide +kernel, by decide +kernel, by decide +kernel⟩

theorem witness_DecodeOfEncodeIsTheCommand : (Instr.oscSetCent 2#2 0x9C#8).wellFormed = true ∧
    (Instr.oscSetLevel 0#2 10#8).wellFormed = true ∧ (Instr.mixFill 65535#16).wellFormed = true := by decide

theorem witness_EncodeOfDecodeIsTheWord : decode 0x1202009C#32 = .instr (.oscSetCent 2#2 0x9C#8) ∧
    decode 0x2100FFFF#32 = .instr (.mixFill 0xFFFF#16) := by decide

theorem witness_DecoderAcceptsExactlyTheLegalWords : legal 0x1100000A#32 ∧ ¬legal 0x1100000B#32 ∧
    ¬legal 0x03000000#32 ∧ ¬legal 0x21010000#32 := ⟨by decide, by decide, by decide, by decide⟩

theorem witness_UnassignedOperationCodesAreIllegal : Opcode.ofCode? (opField 0x03000000#32) = none ∧
    Opcode.ofCode? (opField 0xFF000000#32) = none := by decide

/-- R82's column at the ends of the ranges, by hand: 0x12000000 + (2 << 16) + (-100 mod 256), 0x130100FF for semitone -1;
and one past each end. -/
theorem witness_AssemblerWritesExactlyTheLegalCommands :
    (assembleOp? .oscSetCent [2, -100]).map encode = some 0x1202009C#32 ∧
    (assembleOp? .oscSetSemi [1, -1]).map encode = some 0x130100FF#32 ∧
    (assembleOp? .freqRead [5]).map encode = some 0x02000005#32 ∧
    assembleOp? .oscSetCent [2, -101] = none ∧ assembleOp? .oscGetWave [3] = none ∧ assembleOp? .mixFill [65536] = none ∧
    assembleOp? .freqRead [-1] = none ∧ assembleOp? .nop [0] = none ∧
    (Instr.oscSetCent 2#2 0x9C#8).wellFormed = true := by decide +kernel

theorem witness_StepRunsTheDecodedCommand :
    { busy with cmdPort := [0x30000040#32, 0x38000000#32] }.cmdPort = 0x30000040#32 :: [0x38000000#32] ∧
    decode 0x30000040#32 = .instr (.midiByte 0x40#8) ∧ busy.cmdPort = [] := by decide

theorem witness_IllegalCommandOnlySetsErr : decode 0x12000065#32 = .reject .centRange ∧
    (Instr.oscSetCent 0#2 101#8).wellFormed = false ∧ (Instr.oscGetInc 3#2 0#8).wellFormed = false := by decide

/-- One word, at the edge, for each cause. -/
theorem witness_EveryCauseRaisesIllegalCommand : opField 0x03000000#32 ∉ assignedOps ∧ resField 0x00040000#32 ≠ 0#6 ∧
    (opField 0x18030000#32 ∈ slotOps ∧ kField 0x18030000#32 = 3#2) ∧
    (opField 0x20010000#32 ∉ slotOps ∧ kField 0x20010000#32 ≠ 0#2) ∧
    immField 0x02000100#32 &&& ~~~usedMaskOfOp (opField 0x02000100#32) ≠ 0#16 ∧
    (opField 0x10000003#32 = 0x10#8 ∧ (0x10000003#32).extractLsb' 0 2 = 3#2) ∧
    (opField 0x1100000B#32 = 0x11#8 ∧ 11 ≤ ((0x1100000B#32).extractLsb' 0 8).toNat) ∧
    (opField 0x12000065#32 = 0x12#8 ∧ 100 < ((0x12000065#32).extractLsb' 0 8).toInt) ∧
    (opField 0x1200009B#32 = 0x12#8 ∧ ((0x1200009B#32).extractLsb' 0 8).toInt < -100) := by decide

theorem witness_CommandStreamRunsInOrder : sees State.responses
    (Host.Core.run Sys2Proof.core 1 { State.reset with cmdPort := [0x0200003C#32, 0x29000000#32] }) = some [0x584D#32] := by
  decide +kernel

theorem witness_ResetMeetsTheInvariant : Params.ofAmplitude? 1 = some { maxAmplitude := 1#16 } ∧
    Params.ofAmplitude? 65535 = some { maxAmplitude := 65535#16 } := by decide

theorem witness_StepKeepsTheInvariant : busy.Inv ∧ saturated.Inv ∧ ∃ t, step busy = .next t :=
  ⟨busy_inv, saturated_inv, _, rfl⟩

theorem witness_AmplitudeOutsideItsRangeIsRejected : Params.ofAmplitude? 0 = none ∧ Params.ofAmplitude? 65536 = none ∧
    Params.ofAmplitude? 1 ≠ none ∧ Params.ofAmplitude? 65535 ≠ none ∧ State.ofAmplitude? 0 = none ∧
    State.ofAmplitude? 65536 = none ∧ (State.ofAmplitude? 1).map (·.params.maxAmplitude) = some 1#16 ∧
    (State.ofAmplitude? 65535).map (·.params.maxAmplitude) = some 65535#16 := by decide +kernel

/-- MIX_FILL meets every clause but the one about S, NOP that one. -/
theorem witness_OnlyTheNamedCommandsWriteEachRegister : (∃ t, exec (.mixFill 1#16) busy = .next t) ∧
    (∃ t, exec .nop busy = .next t) ∧ (Instr.mixFill 1#16).isMidiByte = false ∧ (Instr.mixFill 1#16).isOscSet = false ∧
    (Instr.mixFill 1#16).isSetNote = false ∧ Instr.mixFill 1#16 ≠ .noteLatch ∧ Instr.nop.isFill = false ∧
    (Instr.mixFill 1#16).wellFormed = true :=
  ⟨⟨_, rfl⟩, ⟨_, rfl⟩, rfl, rfl, rfl, by decide, rfl, rfl⟩

theorem witness_OnlyTheNamedCommandsReadEachRegister :
    ((Instr.mixFill 1#16).isMidiByte = false ∧ Instr.mixFill 1#16 ≠ .midiGetNote ∧ Instr.mixFill 1#16 ≠ .noteLatch) ∧
    ((Instr.midiByte 0#8).isOscSet = false ∧ (Instr.midiByte 0#8).isOscGet = false ∧ Instr.midiByte 0#8 ≠ .mixGetActive ∧
      (Instr.midiByte 0#8).isFill = false) ∧
    ((Instr.oscGetInc 2#2 60#8).isSetNote = false ∧ Instr.oscGetInc 2#2 60#8 ≠ .noteLatch ∧
      Instr.oscGetInc 2#2 60#8 ≠ .mixGetNote ∧ (Instr.oscGetInc 2#2 60#8).isFill = false) ∧
    ((Instr.midiByte 0#8).isFill = false ∧ Instr.midiByte 0#8 ≠ .mixGetScount) ∧
    ((Instr.mixFill 1#16).wellFormed = true ∧ Instr.mixFill 1#16 ≠ .getStatus) := by decide

theorem witness_ErrIsStickyAndOnlyIllegalWordsSetIt : (∃ t, step { busy with cmdPort := [0x03000000#32] } = .next t) ∧
    ¬legal 0x03000000#32 := ⟨⟨_, rfl⟩, by decide⟩

theorem witness_PortsCarryExactlyTheWordsTheRulesGive : (Instr.oscGetInc 2#2 255#8).wellFormed = true ∧
    (Instr.oscGetInc 2#2 255#8).isRead = true ∧ (Instr.noteLatch).isRead = false ∧ (Instr.noteLatch).isFill = false ∧
    ¬legal 0x18030000#32 ∧ (∃ t, step { busy with cmdPort := [0x18030000#32] } = .next t) :=
  ⟨by decide, rfl, rfl, rfl, by decide, _, rfl⟩

theorem witness_MidiBytesCommuteWithTheMixer : (Instr.mixFill 65535#16).apartFromMidi = true ∧
    (Instr.oscSetCent 3#2 101#8).apartFromMidi = true ∧ (Instr.freqInit).apartFromMidi = true ∧
    (Instr.noteLatch).apartFromMidi = false ∧ (Instr.midiGetNote).apartFromMidi = false := by decide

theorem witness_ReadsAndSettingsAreIdempotent : ((Instr.oscGetCent 2#2).isRead = true ∧
    (Instr.oscGetCent 2#2).wellFormed = true) ∧ (Instr.oscSetCent 0#2 100#8).isOscSet = true ∧
    (Instr.mixSetNote 255#8).isSetNote = true ∧ (Instr.oscSetWave 0#2 3#2).wellFormed = false ∧
    (busy.arch.curNote ≠ 0#7 ∧ 1#16 ≠ 0#16) := by decide

theorem witness_FrequencyLookupIsSilentOutsideTheTable : freqInc (-1) = 0 ∧ freqInc 128 = 0 ∧
    freqInc 0 = 1592576 ∧ freqInc 127 = 2443182080 := by decide +kernel

theorem witness_FreqReadAnswersTheRomWord : (127#8).toNat ≤ 127 ∧ 128 ≤ (128#8).toNat ∧
    (opField 0x02000100#32 = 0x02#8 ∧ (0x02000100#32).extractLsb' 8 16 ≠ 0#16) ∧
    (opField 0x02800000#32 = 0x02#8 ∧ (0x02800000#32).extractLsb' 8 16 ≠ 0#16) := by decide

theorem witness_NopAndFreqInitChangeNothing : (opField 0x00000001#32 = 0x00#8 ∧ 0x00000001#32 ≠ 0x00000000#32) ∧
    (opField 0x01000001#32 = 0x01#8 ∧ 0x01000001#32 ≠ 0x01000000#32) := by decide

theorem witness_OscSetWaveStoresTheWaveform : opField 0x10000003#32 = 0x10#8 ∧
    (0x10000003#32).extractLsb' 0 2 = 3#2 ∧ opField 0x10000004#32 = 0x10#8 ∧ (0x10000004#32).extractLsb' 2 14 ≠ 0#14 ∧
    opField 0x10030000#32 = 0x10#8 ∧ kField 0x10030000#32 = 3#2 ∧ opField 0x10040000#32 = 0x10#8 ∧
    resField 0x10040000#32 ≠ 0#6 := by decide

theorem witness_OscSetLevelStoresTheLevel : opField 0x1100000B#32 = 0x11#8 ∧
    11 ≤ ((0x1100000B#32).extractLsb' 0 8).toNat ∧ 11 ≤ (11#8).toNat ∧ 11 ≤ (255#8).toNat ∧
    (0x11000100#32).extractLsb' 8 8 ≠ 0#8 ∧ kField 0x11030000#32 = 3#2 ∧ resField 0x11040000#32 ≠ 0#6 := by decide

theorem witness_OscSetCentStoresTheCent : (0x65 ≤ (0x65#8).toNat ∧ (0x65#8).toNat ≤ 0x9B) ∧
    (0x65 ≤ (0x9B#8).toNat ∧ (0x9B#8).toNat ≤ 0x9B) ∧ opField 0x12000065#32 = 0x12#8 ∧
    0x65 ≤ ((0x12000065#32).extractLsb' 0 8).toNat ∧ (0x12000100#32).extractLsb' 8 8 ≠ 0#8 ∧
    kField 0x12030000#32 = 3#2 ∧ resField 0x12040000#32 ≠ 0#6 := by decide

theorem witness_OscSetSemiStoresTheSemitone : opField 0x13000100#32 = 0x13#8 ∧ (0x13000100#32).extractLsb' 8 8 ≠ 0#8 ∧
    opField 0x13030000#32 = 0x13#8 ∧ kField 0x13030000#32 = 3#2 ∧ resField 0x13040000#32 ≠ 0#6 := by decide

theorem witness_OscGetAnswersTheField : opField 0x18030000#32 ∈ [0x18#8, 0x19#8, 0x1A#8, 0x1B#8] ∧
    kField 0x18030000#32 = 3#2 ∧ opField 0x1B000001#32 ∈ [0x18#8, 0x19#8, 0x1A#8, 0x1B#8] ∧
    immField 0x1B000001#32 ≠ 0#16 ∧ opField 0x19040000#32 ∈ [0x18#8, 0x19#8, 0x1A#8, 0x1B#8] ∧
    resField 0x19040000#32 ≠ 0#6 := by decide

theorem witness_OscGetIncAnswersTheIncrement : opField 0x1C03003C#32 = 0x1C#8 ∧ kField 0x1C03003C#32 = 3#2 ∧
    opField 0x1C00013C#32 = 0x1C#8 ∧ (0x1C00013C#32).extractLsb' 8 8 ≠ 0#8 ∧ resField 0x1C04003C#32 ≠ 0#6 := by decide

theorem witness_IncrementLiesBetweenTheTableEntries : (pitched 127 100).inRange ∧ (pitched (-128) (-100)).inRange ∧
    (pitched 127 100).cent.toInt = 100 ∧ (pitched (-128) (-100)).cent.toInt = -100 ∧ 1 ≤ 1 ∧ 255 ≤ 255 := by decide

theorem witness_ContributionFollowsTheWaveform : busy.arch.osc[0].wave = .square ∧ busy.arch.osc[2].wave = .sawtooth ∧
    (oneSlot (pitched 0 0)).arch.osc[1].wave = .none ∧
    0 < Params.default.maxAmplitude.toNat * (pitched 0 0).level.toNat / (10 * 3) := by decide

theorem witness_MixSetNoteClampsTheNote : opField 0x20000100#32 = 0x20#8 ∧ (0x20000100#32).extractLsb' 8 16 ≠ 0#16 ∧
    opField 0x20010000#32 = 0x20#8 ∧ (0x20010000#32).extractLsb' 8 16 ≠ 0#16 := by decide

theorem witness_NoteLatchCopiesTheSoundingNote : opField 0x40000001#32 = 0x40#8 ∧ 0x40000001#32 ≠ 0x40000000#32 := by
  decide

theorem witness_SilentFillEmitsZerosAndKeepsTheCount : State.reset.arch.curNote = 0#7 := by decide

theorem witness_FillEmitsTheMixedSamples : busy.arch.slotsInRange ∧ busy.arch.curNote ≠ 0#7 ∧ State.reset.arch.curNote = 0#7 ∧
    opField 0x21010000#32 = 0x21#8 ∧ (0x21010000#32).extractLsb' 16 8 ≠ 0#8 := by decide

theorem witness_SamplesNeverExceedTheMaximum : busy.arch.slotsInRange ∧ (noteSet 60#7).arch.slotsInRange := by decide

theorem witness_MixGetAnswersTheMixerRegisters : opField 0x28000001#32 ∈ [0x28#8, 0x29#8, 0x2A#8] ∧
    (0x28000001#32).extractLsb' 0 24 ≠ 0#24 ∧ opField 0x2A800000#32 ∈ [0x28#8, 0x29#8, 0x2A#8] ∧
    (0x2A800000#32).extractLsb' 0 24 ≠ 0#24 := by decide

theorem witness_SplitFillEqualsOneFill : (37#16).toNat + (63#16).toNat ≤ 65535 ∧ (65535#16).toNat + (0#16).toNat ≤ 65535 :=
  by decide

theorem witness_PhaseAccumulatorsGiveTheSameFill : busy.arch.curNote ≠ 0#7 := by decide

/-- Both cases: a note sounds, and none does. -/
theorem witness_PeriodPlaysTheSoundingNote : busy.arch.sounding = 64 ∧ busy.arch.slotsInRange ∧
    State.reset.arch.sounding = 0 := ⟨by decide +kernel, busy_inv.slots, by decide +kernel⟩

/-- The ends of each class. -/
theorem witness_EveryByteIsInExactlyOneClass : Said.isRealTime 0xFE#8 ∧ Said.isRealTime 0xFF#8 ∧ Said.isOn 0x90#8 ∧
    Said.isOn 0x9F#8 ∧ Said.isOff 0x80#8 ∧ Said.isOff 0x8F#8 ∧ Said.isOther 0x00#8 ∧ Said.isOther 0x7F#8 ∧
    Said.isOther 0xA0#8 ∧ Said.isOther 0xFD#8 ∧ (15#8).toNat < 16 := by decide

theorem witness_MidiByteFollowsTheTransitionTable : State.reset.arch.mst = .idle ∧
    (parsing .onNote 0#8).arch.mst = .onNote ∧ (parsing .offNote 0#8).arch.mst = .offNote ∧ busy.arch.mst = .onVel ∧
    (parsing .offVel 60#8).arch.mst = .offVel ∧ Said.isOther 0xFD#8 ∧ opField 0x30000100#32 = 0x30#8 ∧
    (0x30000100#32).extractLsb' 8 16 ≠ 0#16 := by decide

theorem witness_ActivationCounterNeverDecreases : (∃ t, step busy = .next t) ∧ (127#8).toNat < 128 ∧ 1#8 ≠ 0#8 ∧
    busy.arch.countersOrdered ∧ belowSaturation.arch.countersOrdered ∧ belowSaturation.arch.act.toNat < 2 ^ 32 - 1 :=
  ⟨⟨_, rfl⟩, by decide, by decide, busy_inv.counters, belowSaturation_inv.counters, by decide⟩

theorem witness_SoundingIsTheFirstLargestCounter : (∀ i : Fin 128, State.reset.arch.ctr[i] = 0#32) ∧
    (∃ i : Fin 128, busy.arch.ctr[i] ≠ 0#32) ∧ saturated.arch.sounding = 0 ∧ saturated.arch.ctr[(127 : Fin 128)] ≠ 0#32 := by
  decide +kernel

theorem witness_MidiGetNoteAnswersTheSoundingNote : opField 0x38000001#32 = 0x38#8 ∧ 0x38000001#32 ≠ 0x38000000#32 := by
  decide

/-- Both clauses: a note that is off, with other notes held and the parser in the middle of a message. -/
theorem witness_LatestNoteOnSoundsUntilItsNoteOff : busy.Inv ∧ belowSaturation.Inv ∧ (127#8).toNat < 128 ∧
    1 ≤ (1#8).toNat ∧ (127#8).toNat < 128 ∧ busy.arch.act.toNat < 2 ^ 32 - 1 ∧
    belowSaturation.arch.act.toNat < 2 ^ 32 - 1 ∧ busy.arch.ctr[127] = 0#32 :=
  ⟨busy_inv, belowSaturation_inv, by decide, by decide, by decide, by decide, by decide, by decide +kernel⟩

theorem witness_VelocityZeroActsAsNoteOff : (0#8).toNat < 128 ∧ (127#8).toNat < 128 := by decide

/-- Two parsers that agree in their counters and in nothing else. -/
theorem witness_StatusByteRestartsTheParser :
    (parsing .onVel 60#8).arch.ctr = (parsing .offNote 0#8).arch.ctr ∧
    (parsing .onVel 60#8).arch.act = (parsing .offNote 0#8).arch.act ∧ Said.isOn 0x90#8 ∧ Said.isOff 0x8F#8 ∧
    Said.isOther 0xFD#8 := ⟨rfl, rfl, by decide, by decide, by decide⟩

theorem witness_GetStatusAnswersErr : busy.arch.err = true ∧ State.reset.arch.err = false ∧
    opField 0x48000001#32 = 0x48#8 ∧ 0x48000001#32 ≠ 0x48000000#32 := by decide

/-- The spellings of R82, digit by digit. -/
theorem spells_minus8 : Said.Spells ['-', '8'] (-8) :=
  .inr ⟨['8'], 8, rfl, .inl ⟨by decide, by simp, by decide⟩, rfl⟩

theorem spells_0xF8 : Said.Spells ['0', 'x', 'F', '8'] 248 :=
  .inl ⟨248, .inr ⟨['F', '8'], rfl, by decide, by simp, by decide⟩, rfl⟩

/-- A text with a character that is no digit and no x spells no operand. -/
theorem spells_nothing : ∀ v, ¬Said.Spells ['G'] v := by
  rintro v (⟨n, ⟨-, h, -⟩ | ⟨ds, h, -⟩, -⟩ | ⟨ds, n, h, -⟩)
  · exact absurd (h 'G' (by simp)) (by decide)
  · cases h
  · cases h

theorem witness_AssemblerReadsEveryLine : Said.isComment [] ∧ Said.isComment "; two below".toList ∧
    Said.Spells ['-', '8'] (-8) ∧ Said.Spells ['0', 'x', 'F', '8'] 248 ∧ (∀ v, ¬Said.Spells ['G'] v) ∧
    Said.isPlain ['G'] ∧ (∀ o, ['G'] ≠ (Said.mnemonic o).toList) ∧ ∀ m ∈ Said.otherMnemonics, ['G'] ≠ m.toList :=
  ⟨.inl rfl, .inr ⟨_, rfl⟩, spells_minus8, spells_0xF8, spells_nothing, ⟨by decide, by simp⟩,
    fun o => by cases o <;> simp [Said.mnemonic], by simp [Said.otherMnemonics]⟩

/-- The bounds of the operands, in hexadecimal and decimal. -/
theorem witness_AssemblerExpandsEveryPseudoLine : Said.isComment [';'] ∧ Said.Spells ['0', 'x', 'F', '8'] 248 ∧
    Said.Spells ['-', '8'] (-8) ∧ assembleLine "NOTE_OFF 255".toList = some [0x30000080#32, 0x300000FF#32, 0x30000000#32] ∧
    assembleLine "NOTE_OFF 256".toList = none ∧ assembleLine "OSC_OFF 3".toList = none :=
  ⟨.inr ⟨_, rfl⟩, spells_0xF8, spells_minus8, by decide +kernel, by decide +kernel, by decide +kernel⟩

/-- R266 and R264: a period of the host, which PERIOD expands to. -/
theorem witness_hostDuties : (HostParams.mk 256 .littleEndian).valid ∧
    (HostParams.mk 256 .littleEndian).conforms [.midiByte 0x90#8, .noteLatch, .mixFill 256#16] = true ∧
    (HostParams.mk 256 .bigEndian).conforms [.noteLatch, .mixFill 255#16] = false ∧
    (HostParams.mk 256 .bigEndian).conforms [.mixSetNote 60#8, .mixFill 256#16] = true := by decide

end Sys2Proof.Tests
end

section
/-!
SUPPORT and PROOFS. The family of spec/00_scope.md: the parameter's range (R6, R7), and the invariant of Safety.lean as an
invariant of the step. Each clause of the invariant reads its own piece of the record (the slots; the counters with ACT; MST
with MNOTE), so each is shown to be kept by the operations that write its piece, and every other effect is a frame.
-/

namespace Sys2Proof

/-! ### The parameter (R6, R7) -/

/-- The field's width bounds the parameter above, the proof it carries bounds it below. -/
theorem Params.isValid (p : Params) : p.valid :=
  ⟨p.positive, Nat.le_of_lt_succ p.maxAmplitude.isLt⟩

theorem Params.ofAmplitude?_outside {n : Nat} (h : n = 0 ∨ 65535 < n) : Params.ofAmplitude? n = none :=
  dif_neg (by omega)

theorem Params.ofAmplitude?_inside {n : Nat} (h : 1 ≤ n ∧ n ≤ 65535) :
    ∃ p, Params.ofAmplitude? n = some p ∧ p.maxAmplitude.toNat = n := by
  refine ⟨_, dif_pos h, ?_⟩
  rw [BitVec.toNat_ofNat]
  omega

end Sys2Proof

namespace Sys2Proof.Machine

/-! ### What a byte does to the tracker (R191) -/

/-- A byte is ignored, starts a message, is captured as a note byte, or completes a note-on or a note-off. Only a byte of
class OTHER is captured. -/
theorem midiByte_cases (a : Arch) (b : Byte) :
    a.midiByte b = a ∨
    (∃ m, (m = .onNote ∨ m = .offNote) ∧ a.midiByte b = a.setMst m) ∨
    (∃ m, byteClass b = .other ∧ a.midiByte b = a.capture b m) ∨
    a.midiByte b = (a.noteOn a.mnote b).setMst .idle ∨
    a.midiByte b = (a.noteOff a.mnote).setMst .idle := by
  unfold Arch.midiByte Arch.dataByte
  cases hb : byteClass b with
  | realTime => exact .inl rfl
  | noteOn => exact .inr (.inl ⟨_, .inl rfl, rfl⟩)
  | noteOff => exact .inr (.inl ⟨_, .inr rfl, rfl⟩)
  | other =>
    cases a.mst with
    | idle => exact .inl rfl
    | onNote => exact .inr (.inr (.inl ⟨_, rfl, rfl⟩))
    | offNote => exact .inr (.inr (.inl ⟨_, rfl, rfl⟩))
    | onVel => exact .inr (.inr (.inr (.inl rfl)))
    | offVel => exact .inr (.inr (.inr (.inr rfl)))

/-! ### The counters stay ordered (R196) -/

/-- ACT does not fall at an activation. -/
theorem le_nextActivation (act : Word) : act.toNat ≤ (nextActivation act).toNat := by
  have := act.isLt
  rw [nextActivation_toNat]
  omega

/-- An activation that does not pass ACT is the saturated one. -/
theorem nextActivation_eq_allOnes {act : Word} (h : (nextActivation act).toNat ≤ act.toNat) :
    nextActivation act = BitVec.allOnes 32 := by
  apply BitVec.eq_of_toNat_eq
  rw [nextActivation_toNat] at h ⊢
  rw [BitVec.toNat_allOnes]
  omega

/-- A counter may take a value up to ACT that, unless it is 0 or saturated, no other counter holds. -/
theorem countersOrdered_setCtr {a : Arch} (h : a.countersOrdered) (n : Fin 128) {v : Word} (hle : v.toNat ≤ a.act.toNat)
    (hnew : ∀ j : Fin 128, a.ctr[j] = v → v = 0#32 ∨ v = BitVec.allOnes 32) : (a.setCtr n v).countersOrdered := by
  obtain ⟨hbound, hdistinct⟩ := h
  refine ⟨fun i => ?_, fun i j hij heq => ?_⟩
  · rw [Arch.setCtr_getElem, Arch.setCtr_act]
    split
    · exact hle
    · exact hbound i
  · rw [Arch.setCtr_getElem, Arch.setCtr_getElem] at heq
    rw [Arch.setCtr_getElem]
    split at heq
    · next hi =>
      rw [if_neg fun hj => hij (hi.symm.trans hj)] at heq
      rw [if_pos hi]
      exact hnew j heq.symm
    · next hi =>
      rw [if_neg hi]
      split at heq
      · rw [heq]
        exact hnew i heq
      · exact hdistinct i j hij heq

theorem countersOrdered_clear {a : Arch} (h : a.countersOrdered) (n : Fin 128) : (a.setCtr n 0#32).countersOrdered :=
  countersOrdered_setCtr h n (Nat.zero_le _) fun _ _ => .inl rfl

/-- A new activation passes every counter, or ACT is saturated and the new value is too. -/
theorem countersOrdered_activate {a : Arch} (h : a.countersOrdered) (n : Fin 128) :
    (({ a with act := nextActivation a.act } : Arch).setCtr n (nextActivation a.act)).countersOrdered := by
  obtain ⟨hbound, hdistinct⟩ := h
  have hraised : ({ a with act := nextActivation a.act } : Arch).countersOrdered :=
    ⟨fun i => (hbound i).trans (le_nextActivation a.act), hdistinct⟩
  exact countersOrdered_setCtr hraised n le_rfl fun j hj => .inr (nextActivation_eq_allOnes (hj ▸ hbound j))

theorem countersOrdered_noteOn {a : Arch} (h : a.countersOrdered) (n v : Byte) : (a.noteOn n v).countersOrdered := by
  by_cases hn : n.toNat < 128
  · by_cases hv : v = 0#8
    · rw [hv, noteOn_zero a hn]
      exact countersOrdered_clear h _
    · rw [noteOn_pos a hn hv]
      exact countersOrdered_activate h _
  · rw [(note_out_of_table a (Nat.le_of_not_lt hn) v).1]
    exact h

theorem countersOrdered_noteOff {a : Arch} (h : a.countersOrdered) (n : Byte) : (a.noteOff n).countersOrdered := by
  by_cases hn : n.toNat < 128
  · rw [noteOff_eq_setCtr a hn]
    exact countersOrdered_clear h _
  · rw [(note_out_of_table a (Nat.le_of_not_lt hn) 0#8).2]
    exact h

theorem countersOrdered_midiByte {a : Arch} (h : a.countersOrdered) (b : Byte) : (a.midiByte b).countersOrdered := by
  rcases midiByte_cases a b with e | ⟨m, -, e⟩ | ⟨m, -, e⟩ | e | e <;> rw [e]
  · exact h
  · exact h
  · exact h
  · exact countersOrdered_noteOn h a.mnote b
  · exact countersOrdered_noteOff h a.mnote

/-! ### An awaited velocity has a captured note byte (R35) -/

theorem captureHeld_setMst (a : Arch) {m : ParserState} (h : m ≠ .onVel) (h' : m ≠ .offVel) :
    (a.setMst m).captureHeld :=
  fun hm => (hm.elim h h').elim

theorem captureHeld_midiByte {a : Arch} (h : a.captureHeld) (b : Byte) : (a.midiByte b).captureHeld := by
  rcases midiByte_cases a b with e | ⟨m, rfl | rfl, e⟩ | ⟨m, hb, e⟩ | e | e <;> rw [e]
  · exact h
  · exact captureHeld_setMst a nofun nofun
  · exact captureHeld_setMst a nofun nofun
  · exact fun _ => hb
  · exact captureHeld_setMst _ nofun nofun
  · exact captureHeld_setMst _ nofun nofun

/-! ### The invariant through a command and a step -/

theorem slotsInRange_setOsc {s : State} (h : s.arch.slotsInRange) (k : Fin 3) {o : Osc} (ho : o.inRange) :
    (s.setOsc k o).arch.slotsInRange := by
  intro j
  rw [State.setOsc_getElem]
  split
  · exact ho
  · exact h j

/-- The invariant reads the parameter, the slots and the tracker, and nothing else. -/
theorem State.Inv.of_frame {s t : State} (h : s.Inv) (hosc : t.arch.osc = s.arch.osc)
    (htracker : Said.sameTracker t.arch s.arch) : t.Inv := by
  obtain ⟨hctr, hact, hmst, hmnote⟩ := htracker
  refine ⟨t.params.isValid, ?_, ?_, ?_⟩
  · simpa only [Arch.slotsInRange, hosc] using h.slots
  · simpa only [Arch.countersOrdered, hctr, hact] using h.counters
  · simpa only [Arch.captureHeld, hmst, hmnote] using h.capture

/-- Every effect a command can have keeps the invariant. -/
theorem State.Inv.of_effect {i : Instr} {s t : State} (h : s.Inv) (he : Effect i s t) : t.Inv := by
  cases he with
  | illegal | nothing | answer | note | silence | fill => exact h.of_frame rfl ⟨rfl, rfl, rfl, rfl⟩
  | slot k o _ _ hr => exact ⟨h.params, slotsInRange_setOsc h.slots k (hr (h.slots k)), h.counters, h.capture⟩
  | midi b =>
    refine ⟨h.params, ?_, countersOrdered_midiByte h.counters b, captureHeld_midiByte h.capture b⟩
    rw [Arch.slotsInRange, (midiByte_frame s.arch b).1]
    exact h.slots

/-- Taking a word from the command port is a frame for the invariant. -/
theorem State.Inv.of_cmdPort {s : State} (h : s.Inv) (q : List Word) : State.Inv { s with cmdPort := q } :=
  h.of_frame rfl ⟨rfl, rfl, rfl, rfl⟩

/-! ### The obligations -/

/-- Settles O16: a step waits, sets ERR, or has one of a command's effects, and each of these keeps the invariant. -/
theorem stepKeepsTheInvariant : Obligations.StepKeepsTheInvariant := by
  intro s t hs ht
  rcases step_cases s with ⟨-, hstep⟩ | ⟨w, rest, -, ⟨r, -, hstep⟩ | ⟨i, u, -, -, hstep, he⟩⟩ <;>
    cases hstep.symm.trans ht
  · exact hs
  · exact hs.of_frame rfl ⟨rfl, rfl, rfl, rfl⟩
  · exact (hs.of_cmdPort rest).of_effect he

/-- Settles O17: the number is checked when the parameter is built, and the parameter's type carries the range. -/
theorem amplitudeOutsideItsRangeIsRejected : Obligations.AmplitudeOutsideItsRangeIsRejected := by
  refine ⟨fun n h => ?_, fun n h1 h2 => ?_, fun s => s.params.isValid, rfl⟩
  · have hn := Params.ofAmplitude?_outside h
    exact ⟨hn, by rw [State.ofAmplitude?, hn, Option.map_none]⟩
  · obtain ⟨p, hp, hval⟩ := Params.ofAmplitude?_inside ⟨h1, h2⟩
    refine ⟨p, hp, hval, p.isValid, ?_⟩
    rw [State.ofAmplitude?, hp, Option.map_some]
    rfl

end Sys2Proof.Machine
end

section
/-!
SUPPORT and PROOFS. The family of spec/10_state.md: who writes each register (R63), the ports (R38, R39), ERR (R22), ACT
(R196), and the stream of commands (R56). What a command leaves as it was is read off its effects, one lemma per piece of
state; what a word does goes through the decoder's two answers, a legal word's command and an illegal word's exception.
-/

namespace Sys2Proof

/-! ### Legal words and the decoder (R77) -/

/-- The word of a well-formed command is read back as the command. -/
theorem decode_encode {i : Instr} (h : i.wellFormed = true) : decode (encode i) = .instr i := by
  have hslot : ¬(i.opcode.takesSlot = false ∧ i.slot ≠ 0#2) := fun ⟨ht, hne⟩ => hne (Instr.slot_of_not_takesSlot ht)
  have hdec := decode_of_fields (w := encode i) (o := i.opcode)
  simp only [encode, opField_packWord, resField_packWord, kField_packWord, immField_packWord, Instr.toInstr_fields]
    at hdec
  exact hdec (Opcode.ofCode?_code _) trivial hslot i.imm_unused h

/-- A word that decodes is legal. -/
theorem legal_of_decode {w : Word} {i : Instr} (h : decode w = .instr i) : legal w := by
  obtain ⟨o, ho, hres, hk, himm, rfl, hwf⟩ := decode_eq_instr h
  exact (legal_iff w).2 ⟨o, ho, hres, hk, himm, hwf⟩

/-- A word the decoder rejects is illegal. -/
theorem not_legal_of_reject {w : Word} {r : Reject} (h : decode w = .reject r) : ¬legal w := by
  intro hl
  obtain ⟨o, ho, hres, hk, himm, hwf⟩ := (legal_iff w).1 hl
  cases h.symm.trans (decode_of_fields ho hres hk himm hwf)

/-! ### Kinds of command -/

theorem Instr.not_isRead_of_isOscSet {i : Instr} (h : i.isOscSet = true) : i.isRead = false := by
  cases i with
  | oscSetWave | oscSetLevel | oscSetCent | oscSetSemi => rfl
  | _ => cases h

theorem Instr.not_isRead_of_isSetNote {i : Instr} (h : i.isSetNote = true) : i.isRead = false := by
  cases i with
  | mixSetNote => rfl
  | _ => cases h

end Sys2Proof

namespace Sys2Proof.Machine

/-! ### What a command leaves as it was (R63) -/

section
variable {i : Instr} {s t : State} (he : Effect i s t)
include he

theorem Effect.sameTracker (h : i.isMidiByte = false) : Said.sameTracker t.arch s.arch := by
  cases he with
  | midi b hb => subst hb; cases h
  | illegal | nothing | answer | slot | note | silence | fill => exact ⟨rfl, rfl, rfl, rfl⟩

theorem Effect.osc_eq (h : i.isOscSet = false) : t.arch.osc = s.arch.osc := by
  cases he with
  | slot k o hset => cases hset.symm.trans h
  | midi b =>
    obtain ⟨hosc, -⟩ := midiByte_frame s.arch b
    exact hosc
  | illegal | nothing | answer | note | silence | fill => rfl

theorem Effect.curNote_eq (h : i.isSetNote = false) (h' : i ≠ .noteLatch) : t.arch.curNote = s.arch.curNote := by
  cases he with
  | note n hn => exact hn.elim (fun hn => by cases hn.symm.trans h) fun hn => absurd hn h'
  | midi b =>
    obtain ⟨-, hnote, -⟩ := midiByte_frame s.arch b
    exact hnote
  | illegal | nothing | answer | slot | silence | fill => rfl

theorem Effect.scount_eq (h : i.isFill = false) : t.arch.scount = s.arch.scount := by
  cases he with
  | fill n hn => subst hn; cases h
  | midi b =>
    obtain ⟨-, -, hcount, -⟩ := midiByte_frame s.arch b
    exact hcount
  | illegal | nothing | answer | slot | note | silence => rfl

theorem Effect.err_eq (h : i.wellFormed = true) : t.arch.err = s.arch.err := by
  cases he with
  | illegal hwf => cases hwf.symm.trans h
  | midi b =>
    obtain ⟨-, -, -, herr⟩ := midiByte_frame s.arch b
    exact herr
  | nothing | answer | slot | note | silence | fill => rfl

theorem Effect.params_eq : t.params = s.params := by cases he <;> rfl

theorem Effect.cmdPort_eq : t.cmdPort = s.cmdPort := by cases he <;> rfl

/-! ### What a command puts on the output ports (R38, R39) -/

/-- A legal read answers with one word. -/
theorem Effect.outPort_of_isRead (hwf : i.wellFormed = true) (h : i.isRead = true) :
    ∃ v, t.outPort = s.outPort ++ [.response v] := by
  cases he with
  | answer v => exact ⟨v, rfl⟩
  | illegal hill => cases hill.symm.trans hwf
  | slot k o hset => cases h.symm.trans (Instr.not_isRead_of_isOscSet hset)
  | nothing hi => rcases hi with rfl | rfl <;> cases h
  | note n hi =>
    rcases hi with hi | rfl
    · cases h.symm.trans (Instr.not_isRead_of_isSetNote hi)
    · cases h
  | silence n hi | fill n hi => subst hi; cases h
  | midi b hi => subst hi; cases h

/-- A fill of length N puts N words on the sample port, silent or not. -/
theorem Effect.outPort_of_mixFill {n : Half} (hi : i = .mixFill n) :
    ∃ vs : List Half, vs.length = n.toNat ∧ t.outPort = s.outPort ++ vs.map .sample := by
  subst hi
  cases he with
  | silence m hm => cases hm; exact ⟨_, List.length_replicate, rfl⟩
  | fill m hm => cases hm; exact ⟨_, fillSamples_length _ _ _, rfl⟩
  | illegal h | answer v h | slot k o h => cases h
  | nothing h | note v h => rcases h with h | h <;> cases h
  | midi b h => cases h

/-- Every other command puts nothing on a port. -/
theorem Effect.outPort_eq (h : i.isRead = false) (h' : i.isFill = false) : t.outPort = s.outPort := by
  cases he with
  | answer v hread => cases hread.symm.trans h
  | silence n hi | fill n hi => subst hi; cases h'
  | illegal | nothing | slot | note | midi => rfl

end

/-! ### ACT (R196) -/

theorem act_le_noteOn (a : Arch) (n v : Byte) : a.act.toNat ≤ (a.noteOn n v).act.toNat := by
  by_cases hn : n.toNat < 128
  · by_cases hv : v = 0#8
    · rw [hv, noteOn_zero a hn, Arch.setCtr_act]
    · rw [noteOn_pos a hn hv, Arch.setCtr_act]
      exact le_nextActivation a.act
  · rw [(note_out_of_table a (Nat.le_of_not_lt hn) v).1]

theorem act_le_midiByte (a : Arch) (b : Byte) : a.act.toNat ≤ (a.midiByte b).act.toNat := by
  rcases midiByte_cases a b with e | ⟨m, -, e⟩ | ⟨m, -, e⟩ | e | e <;> rw [e]
  · rfl
  · rfl
  · exact act_le_noteOn a a.mnote b
  · obtain ⟨-, -, -, -, -, -, hact⟩ := noteOff_frame a a.mnote
    rw [Arch.setMst_act, hact]

theorem Effect.act_le {i : Instr} {s t : State} (he : Effect i s t) : s.arch.act.toNat ≤ t.arch.act.toNat := by
  cases he with
  | midi b => exact act_le_midiByte s.arch b
  | illegal | nothing | answer | slot | note | silence | fill => rfl

/-! ### Words and streams (R56) -/

/-- A step takes the oldest word and runs it; the words behind it stay. -/
theorem step_word {w : Word} {s t : State} (h : runWord w s = .next t) (q : List Word) :
    step { s with cmdPort := w :: q } = .next { t with cmdPort := q } := by
  rw [step_cons (s := { s with cmdPort := w :: q }) rfl]
  exact (runWord_withPort w s q).trans (by rw [h]; rfl)

/-- An illegal word sets ERR, and that is all (R241). -/
theorem step_of_not_legal {s : State} {w : Word} {rest : List Word} (hw : ¬legal w) (hs : s.cmdPort = w :: rest) :
    step s = .next (State.setErr { s with cmdPort := rest }) := by
  cases hd : decode w with
  | instr i => exact absurd (legal_of_decode hd) hw
  | reject r => exact (step_cons hs).trans (runWord_reject hd _)

/-- A run goes on from the next state of its first word. -/
theorem runsTo_cons_of_runWord {w : Word} {s t : State} (h : runWord w s = .next t) (ws : List Word) (u : State) :
    s.RunsTo (w :: ws) u ↔ t.RunsTo ws u := by
  rw [runsTo_cons, h]
  constructor
  · rintro ⟨t', ht', hrun⟩
    cases ht'
    exact hrun
  · exact fun hrun => ⟨t, rfl, hrun⟩

/-- A run over the word of a well-formed command goes on from the command's next state. -/
theorem runsTo_encode_cons {i : Instr} (hwf : i.wellFormed = true) {s t : State} (h : exec i s = .next t)
    (ws : List Word) (u : State) : s.RunsTo (encode i :: ws) u ↔ t.RunsTo ws u :=
  runsTo_cons_of_runWord ((runWord_instr (decode_encode hwf) s).trans h) ws u

/-! ### OSC_DEFAULTS (R83) -/

/-- A slot with wave, level and semitone at their defaults, its cent as it was. -/
def Osc.withDefaults (o : Osc) : Osc := { wave := .square, level := 10#4, cent := o.cent, semi := 0#8 }

/-- Of two writes of a slot the second stays. -/
theorem State.setOsc_setOsc (s : State) (k : Fin 3) (o p : Osc) : (s.setOsc k o).setOsc k p = s.setOsc k p := by
  simp [State.setOsc]

/-- The three commands of `slotDefaults` write one slot's defaults. -/
theorem runsTo_slotDefaults (k : Fin 3) (s : State) (ws : List Word) (u : State) :
    s.RunsTo ((slotDefaults (BitVec.ofNat 2 k.val)).map encode ++ ws) u ↔
      (s.setOsc k s.arch.osc[k].withDefaults).RunsTo ws u := by
  have hwave : (Instr.oscSetWave (BitVec.ofNat 2 k.val) 1#2).wellFormed = true := by revert k; decide
  have hlevel : (Instr.oscSetLevel (BitVec.ofNat 2 k.val) 10#8).wellFormed = true := by revert k; decide
  have hsemi : (Instr.oscSetSemi (BitVec.ofNat 2 k.val) 0#8).wellFormed = true := slotLegal_ofNat k
  simp only [slotDefaults, List.map_cons, List.map_nil, List.cons_append, List.nil_append]
  rw [runsTo_encode_cons hwave (exec_oscSetWave k .square s),
    runsTo_encode_cons hlevel (exec_oscSetLevel k (by decide) _),
    runsTo_encode_cons hsemi (exec_oscSetSemi k _ _)]
  simp only [State.setOsc_setOsc, State.setOsc_getElem, if_true]
  rfl

/-- A run over the word of a legal OSC_SET_CENT goes on with the slot's cent written. -/
theorem runsTo_oscSetCent (k : Fin 3) {c : Byte} (hc : -100 ≤ c.toInt ∧ c.toInt ≤ 100) (s : State) (ws : List Word)
    (u : State) : s.RunsTo (encode (.oscSetCent (BitVec.ofNat 2 k.val) c) :: ws) u ↔
      (s.setOsc k { s.arch.osc[k] with cent := c }).RunsTo ws u := by
  refine runsTo_encode_cons ?_ (exec_oscSetCent k hc s) ws u
  simp [Instr.wellFormed, slotLegal_ofNat, centLegal, hc]

/-- Writing all three slots gives the vector of what was written. -/
theorem setOsc_three (s : State) (o₀ o₁ o₂ : Osc) :
    ((s.setOsc 0 o₀).setOsc 1 o₁).setOsc 2 o₂ = { s with arch := { s.arch with osc := #v[o₀, o₁, o₂] } } := by
  have hosc : ((s.arch.osc.set 0 o₀).set 1 o₁).set 2 o₂ = #v[o₀, o₁, o₂] := by
    apply Vector.ext
    intro i hi
    obtain rfl | rfl | rfl : i = 0 ∨ i = 1 ∨ i = 2 := by omega
    · simp
    · simp
    · simp
  exact congrArg (fun v => { s with arch := { s.arch with osc := v } }) hosc

/-! ### Reset (R260) -/

/-- The invariant holds after reset: the slots' values are legal, every counter is 0, no velocity is awaited. -/
theorem State.Inv.resetWith (p : Params) : (State.resetWith p).Inv := by
  have hctr : ∀ i : Fin 128, Arch.reset.ctr[i] = 0#32 := fun i => Vector.getElem_replicate i.isLt
  refine ⟨p.isValid, ?_, ⟨fun i => ?_, fun i j _ _ => .inl (hctr i)⟩, fun h => ?_⟩
  · show Arch.reset.slotsInRange
    decide
  · show Arch.reset.ctr[i].toNat ≤ _
    rw [hctr i]
    exact Nat.zero_le _
  · rcases h with h | h <;> cases h

/-! ### The obligations -/

/-- Settles O13, by induction on the first part: a word runs whatever waits behind it. -/
theorem commandStreamRunsInOrder : Obligations.CommandStreamRunsInOrder := by
  intro us vs s
  induction us generalizing s with
  | nil => exact ⟨{ s with cmdPort := [] }, rfl, rfl, fun _ => Iff.rfl⟩
  | cons w us ih =>
    obtain ⟨s', hw, -⟩ := runWord_next w s
    obtain ⟨t, hrun, hwait, hcut⟩ := ih s'
    exact ⟨t, (runsTo_cons_of_runWord hw us t).2 hrun,
      (run_succ us.length (step_word hw (us ++ vs))).trans hwait,
      fun u => (runsTo_cons_of_runWord hw (us ++ vs) u).trans (hcut u)⟩

/-- Settles O18: each piece of state is a frame of every effect but those of the commands its row names. -/
theorem onlyTheNamedCommandsWriteEachRegister : Obligations.OnlyTheNamedCommandsWriteEachRegister := by
  intro i s t h
  have he := effect_of_exec h
  exact ⟨he.sameTracker, he.osc_eq, he.curNote_eq, he.scount_eq, he.err_eq, he.params_eq, he.cmdPort_eq⟩

/-- Settles O20: an illegal word sets ERR, a legal word's command keeps it. -/
theorem errIsStickyAndOnlyIllegalWordsSetIt : Obligations.ErrIsStickyAndOnlyIllegalWordsSetIt := by
  refine ⟨rfl, fun s t ht => ?_, fun s => rfl⟩
  rcases step_cases s with ⟨hs, hstep⟩ | ⟨w, rest, hs, ⟨r, hd, hstep⟩ | ⟨i, u, hd, hwf, hstep, he⟩⟩ <;>
    cases hstep.symm.trans ht
  · have hnone : ¬∃ w rest, s.cmdPort = w :: rest ∧ ¬legal w := by simp [hs]
    exact (or_iff_left hnone).symm
  · exact iff_of_true rfl (.inr ⟨w, rest, hs, not_legal_of_reject hd⟩)
  · have hlegal : ¬∃ w rest, s.cmdPort = w :: rest ∧ ¬legal w := by
      rintro ⟨w', rest', hs', hw'⟩
      cases hs.symm.trans hs'
      exact hw' (legal_of_decode hd)
    rw [he.err_eq hwf, or_iff_left hlegal]

/-- Settles O21: a command's outputs are read off its effect, and an illegal word has ERR as its only effect. -/
theorem portsCarryExactlyTheWordsTheRulesGive : Obligations.PortsCarryExactlyTheWordsTheRulesGive := by
  refine ⟨fun i s hwf => ?_, fun w s t rest hw hs ht => ?_⟩
  · obtain ⟨t, ht, he⟩ := exec_effect i s
    exact ⟨t, ht, he.outPort_of_isRead hwf, fun n => he.outPort_of_mixFill, he.outPort_eq⟩
  · cases (step_of_not_legal hw hs).symm.trans ht
    rfl

/-- Settles O47: the three slots get wave, level and semitone, then their cents, and all that was in them is gone. -/
theorem oscDefaultsRestoresTheResetSlots : Obligations.OscDefaultsRestoresTheResetSlots := by
  intro s
  have hwords : Pseudo.oscDefaults.words =
      (slotDefaults (BitVec.ofNat 2 (0 : Fin 3).val)).map encode ++
      ((slotDefaults (BitVec.ofNat 2 (1 : Fin 3).val)).map encode ++
      ((slotDefaults (BitVec.ofNat 2 (2 : Fin 3).val)).map encode ++
      [encode (.oscSetCent (BitVec.ofNat 2 (0 : Fin 3).val) 0#8),
       encode (.oscSetCent (BitVec.ofNat 2 (1 : Fin 3).val) 8#8),
       encode (.oscSetCent (BitVec.ofNat 2 (2 : Fin 3).val) (BitVec.ofInt 8 (-8)))])) := rfl
  rw [hwords, runsTo_slotDefaults, runsTo_slotDefaults, runsTo_slotDefaults, runsTo_oscSetCent 0 (by decide),
    runsTo_oscSetCent 1 (by decide), runsTo_oscSetCent 2 (by decide), runsTo_nil]
  simp only [setOsc_three]
  rfl

/-- Settles O50: only an activation moves ACT, up by one or not at all at saturation. -/
theorem activationCounterNeverDecreases : Obligations.ActivationCounterNeverDecreases := by
  refine ⟨fun s t ht => ?_, fun a n v hn hv => ?_, fun a n v hn hv ⟨hbound, _⟩ hact => ⟨?_, fun j => ?_⟩⟩
  · rcases step_cases s with ⟨-, hstep⟩ | ⟨w, rest, -, ⟨r, -, hstep⟩ | ⟨i, u, -, -, hstep, he⟩⟩ <;>
      cases hstep.symm.trans ht
    · rfl
    · rfl
    · exact he.act_le
  · rw [noteOn_pos a hn hv, Arch.setCtr_act, nextActivation_toNat]
  · simp only [noteOn_pos a hn hv, Arch.setCtr_ctr, Vector.getElem_set_self, nextActivation_toNat]
    omega
  · exact Nat.lt_succ_of_le (hbound j)

/-- Settles O9: the step on a waiting word, and on none. -/
theorem stepRunsTheDecodedCommand : Obligations.StepRunsTheDecodedCommand :=
  ⟨fun _ _ _ _ hs hd => (step_cons hs).trans (runWord_instr hd _), fun _ hs => step_nil hs⟩

/-- Settles O15: reset meets the invariant whatever the parameter. -/
theorem resetMeetsTheInvariant : Obligations.ResetMeetsTheInvariant :=
  ⟨State.Inv.resetWith Params.default, fun _ p _ => State.Inv.resetWith p⟩

end Sys2Proof.Machine
end

section
/-!
SUPPORT and PROOFS. The family of spec/20_memory.md: who reads each register (R63), which commands a MIDI byte commutes with
(R64), and what repeating a command does (R54). A slot command does the same from every state: it answers with a view of
its slot, writes its slot, or takes the exception. A change of the record that a command neither reads nor undoes can be
made before the command or after it.
-/

namespace Sys2Proof

/-! ### Operands of a well-formed slot command (R77) -/

theorem slotLegal_exists {k : SlotSel} (h : slotLegal k = true) : ∃ j : Fin 3, k = BitVec.ofNat 2 j.val := by
  revert k; decide

theorem waveCodeLegal_exists {c : BitVec 2} (h : waveCodeLegal c = true) : ∃ v : Machine.Wave, c = v.code := by
  rcases Machine.Wave.ofCode?_cases c with ⟨rfl, -⟩ | ⟨v, hv, -⟩
  · cases h
  · exact ⟨v, hv⟩

/-- R64's list names no command of the tracker. -/
theorem Instr.tracker_unused_of_apartFromMidi {i : Instr} (h : i.apartFromMidi = true) :
    i.isMidiByte = false ∧ i ≠ .midiGetNote ∧ i ≠ .noteLatch := by
  cases i with
  | midiByte | midiGetNote | noteLatch => cases h
  | _ => exact ⟨rfl, nofun, nofun⟩

end Sys2Proof

namespace Sys2Proof.Machine

/-! ### What a command does from every state alike -/

/-- A command with an illegal operand value takes the exception (R241). -/
theorem exec_of_not_wellFormed {i : Instr} (h : i.wellFormed = false) (s : State) : exec i s = .next s.setErr := by
  obtain ⟨t, ht, he⟩ := exec_effect i s
  cases he with
  | illegal => exact ht
  | answer v _ hwf | slot k o _ hwf => cases hwf.symm.trans h
  | nothing hi => rcases hi with rfl | rfl <;> cases h
  | note n hi =>
    rcases hi with hi | rfl
    · cases i with
      | mixSetNote => cases h
      | _ => cases hi
    · cases h
  | silence n hi | fill n hi | midi n hi => subst hi; cases h

/-- A well-formed slot command answers with a view of its slot, or gives its slot a value that a second write leaves. -/
theorem exec_slot_cases {i : Instr} (ht : i.opcode.takesSlot = true) (hwf : i.wellFormed = true) :
    (i.isRead = true ∧ ∃ (k : Fin 3) (view : Osc → Word), ∀ s, exec i s = .next (s.respond (view s.arch.osc[k]))) ∨
    (i.isOscSet = true ∧ ∃ (k : Fin 3) (write : Osc → Osc), (∀ o, write (write o) = write o) ∧
      ∀ s, exec i s = .next (s.setOsc k (write s.arch.osc[k]))) := by
  cases i with
  | oscGetWave k =>
    obtain ⟨j, rfl⟩ := slotLegal_exists hwf
    exact .inl ⟨rfl, j, fun o => zext32 o.wave.code, exec_oscGetWave j⟩
  | oscGetLevel k =>
    obtain ⟨j, rfl⟩ := slotLegal_exists hwf
    exact .inl ⟨rfl, j, fun o => zext32 o.level, exec_oscGetLevel j⟩
  | oscGetCent k =>
    obtain ⟨j, rfl⟩ := slotLegal_exists hwf
    exact .inl ⟨rfl, j, fun o => sext32 o.cent, exec_oscGetCent j⟩
  | oscGetSemi k =>
    obtain ⟨j, rfl⟩ := slotLegal_exists hwf
    exact .inl ⟨rfl, j, fun o => sext32 o.semi, exec_oscGetSemi j⟩
  | oscGetInc k n =>
    obtain ⟨j, rfl⟩ := slotLegal_exists hwf
    exact .inl ⟨rfl, j, fun o => inc o n.toNat, exec_oscGetInc j n⟩
  | oscSetWave k c =>
    obtain ⟨hk, hc⟩ := Bool.and_eq_true_iff.1 hwf
    obtain ⟨j, rfl⟩ := slotLegal_exists hk
    obtain ⟨v, rfl⟩ := waveCodeLegal_exists hc
    exact .inr ⟨rfl, j, fun o => { o with wave := v }, fun _ => rfl, exec_oscSetWave j v⟩
  | oscSetLevel k l =>
    obtain ⟨hk, hl⟩ := Bool.and_eq_true_iff.1 hwf
    obtain ⟨j, rfl⟩ := slotLegal_exists hk
    exact .inr ⟨rfl, j, fun o => { o with level := l.setWidth 4 }, fun _ => rfl,
      exec_oscSetLevel j (of_decide_eq_true hl)⟩
  | oscSetCent k c =>
    obtain ⟨hk, hc⟩ := Bool.and_eq_true_iff.1 hwf
    obtain ⟨j, rfl⟩ := slotLegal_exists hk
    exact .inr ⟨rfl, j, fun o => { o with cent := c }, fun _ => rfl, exec_oscSetCent j (of_decide_eq_true hc)⟩
  | oscSetSemi k c =>
    obtain ⟨j, rfl⟩ := slotLegal_exists hwf
    exact .inr ⟨rfl, j, fun o => { o with semi := c }, fun _ => rfl, exec_oscSetSemi j c⟩
  | _ => cases ht

/-- A legal read answers with a view of the record. -/
theorem exec_of_isRead {i : Instr} (hread : i.isRead = true) (hwf : i.wellFormed = true) :
    ∃ view : State → Word, (∀ s v, view (s.respond v) = view s) ∧ ∀ s, exec i s = .next (s.respond (view s)) := by
  cases hslot : i.opcode.takesSlot with
  | true =>
    rcases exec_slot_cases hslot hwf with ⟨-, k, view, h⟩ | ⟨hset, -⟩
    · exact ⟨fun s => view s.arch.osc[k], fun _ _ => rfl, h⟩
    · cases hread.symm.trans (Instr.not_isRead_of_isOscSet hset)
  | false =>
    cases i with
    | freqRead n => exact ⟨fun _ => zext32 (freqWord n), fun _ _ => rfl, fun _ => rfl⟩
    | mixGetNote => exact ⟨fun s => zext32 s.arch.curNote, fun _ _ => rfl, fun _ => rfl⟩
    | mixGetActive => exact ⟨fun s => BitVec.ofNat 32 s.arch.activeCount, fun _ _ => rfl, fun _ => rfl⟩
    | mixGetScount => exact ⟨fun s => s.arch.scount, fun _ _ => rfl, fun _ => rfl⟩
    | midiGetNote => exact ⟨fun s => BitVec.ofNat 32 s.arch.sounding, fun _ _ => rfl, fun _ => rfl⟩
    | getStatus => exact ⟨fun s => errWord s.arch.err, fun _ _ => rfl, fun _ => rfl⟩
    | nop | freqInit | mixSetNote | mixFill | midiByte | noteLatch => cases hread
    | _ => cases hslot

/-! ### The parser reads and writes the tracker alone (R191-R195) -/

theorem noteOn_withTrackerOf (c a : Arch) (n v : Byte) :
    (Said.withTrackerOf c a).noteOn n v = Said.withTrackerOf c (a.noteOn n v) := by
  by_cases hn : n.toNat < 128
  · by_cases hv : v = 0#8
    · rw [hv, noteOn_zero _ hn, noteOn_zero _ hn]
      rfl
    · rw [noteOn_pos _ hn hv, noteOn_pos _ hn hv]
      rfl
  · rw [(note_out_of_table _ (Nat.le_of_not_lt hn) v).1, (note_out_of_table _ (Nat.le_of_not_lt hn) v).1]

theorem noteOff_withTrackerOf (c a : Arch) (n : Byte) :
    (Said.withTrackerOf c a).noteOff n = Said.withTrackerOf c (a.noteOff n) := by
  by_cases hn : n.toNat < 128
  · rw [noteOff_eq_setCtr _ hn, noteOff_eq_setCtr _ hn]
    rfl
  · rw [(note_out_of_table _ (Nat.le_of_not_lt hn) 0#8).2, (note_out_of_table _ (Nat.le_of_not_lt hn) 0#8).2]

theorem dataByte_withTrackerOf (c a : Arch) (b : Byte) :
    (Said.withTrackerOf c a).dataByte b = Said.withTrackerOf c (a.dataByte b) := by
  obtain ⟨osc, curNote, scount, ctr, act, mst, mnote, err⟩ := a
  cases mst with
  | idle | onNote | offNote => rfl
  | onVel => exact congrArg (·.setMst .idle) (noteOn_withTrackerOf c _ mnote b)
  | offVel => exact congrArg (·.setMst .idle) (noteOff_withTrackerOf c _ mnote)

/-- What a byte does to the tracker does not depend on the rest of the record, and leaves the rest as it is. -/
theorem midiByte_withTrackerOf (c a : Arch) (b : Byte) :
    (Said.withTrackerOf c a).midiByte b = Said.withTrackerOf c (a.midiByte b) := by
  unfold Arch.midiByte
  cases byteClass b with
  | realTime | noteOn | noteOff => rfl
  | other => exact dataByte_withTrackerOf c a b

/-! ### Changing the record before a command or after it (R63) -/

/-- The samples of a fill depend on the slots, CUR_NOTE and S alone (R163). -/
theorem fillSamples_congr (p : Params) {a b : Arch} (hosc : b.osc = a.osc) (hnote : b.curNote = a.curNote)
    (hcount : b.scount = a.scount) (n : Nat) : fillSamples p b n = fillSamples p a n := by
  simp only [fillSamples, Arch.increments, Arch.activeCount, hosc, hnote, hcount]

section
variable (f : Arch → Arch)

/-- A change that keeps the tracker, and does not depend on it, commutes with a byte. -/
theorem exec_midiByte_mapArch (hkeep : ∀ a, Said.withTrackerOf (f a) a = f a)
    (hapart : ∀ a c, f (Said.withTrackerOf a c) = Said.withTrackerOf (f a) c) (b : Byte) (s : State) :
    exec (.midiByte b) { s with arch := f s.arch } = Said.mapArch f (exec (.midiByte b) s) := by
  have hcomm : (f s.arch).midiByte b = f (s.arch.midiByte b) :=
    calc (f s.arch).midiByte b = (Said.withTrackerOf (f s.arch) s.arch).midiByte b := by rw [hkeep]
      _ = Said.withTrackerOf (f s.arch) (s.arch.midiByte b) := midiByte_withTrackerOf _ _ b
      _ = f (Said.withTrackerOf s.arch (s.arch.midiByte b)) := (hapart _ _).symm
      _ = f ((Said.withTrackerOf s.arch s.arch).midiByte b) := by rw [midiByte_withTrackerOf]
  exact congrArg (fun a => Host.Outcome.next { s with arch := a }) hcomm

variable {s : State}

/-- A change that keeps the slots, and commutes with a write of the slots, commutes with a slot command; where the operand
is illegal it has to commute with a write of ERR. -/
theorem exec_slot_mapArch {i : Instr} (ht : i.opcode.takesSlot = true) (hosc : (f s.arch).osc = s.arch.osc)
    (hset : ∀ v, f { s.arch with osc := v } = { f s.arch with osc := v })
    (herr : i.wellFormed = false → f { s.arch with err := true } = { f s.arch with err := true }) :
    exec i { s with arch := f s.arch } = Said.mapArch f (exec i s) := by
  cases hwf : i.wellFormed with
  | false =>
    rw [exec_of_not_wellFormed hwf, exec_of_not_wellFormed hwf]
    simp only [Said.mapArch, State.setErr, herr hwf]
  | true =>
    rcases exec_slot_cases ht hwf with ⟨-, k, view, h⟩ | ⟨-, k, write, -, h⟩
    · simp only [h, hosc, Said.mapArch, State.respond]
    · have hwrite := hset (s.arch.osc.set k.val (write s.arch.osc[k]) k.isLt)
      simp only [h, hosc, hwrite, Said.mapArch, State.setOsc]

/-- A change that keeps the slots, CUR_NOTE and S, and commutes with a write of S, commutes with a fill. -/
theorem exec_mixFill_mapArch (n : Half) (hosc : (f s.arch).osc = s.arch.osc)
    (hnote : (f s.arch).curNote = s.arch.curNote) (hcount : (f s.arch).scount = s.arch.scount)
    (hset : ∀ v, f { s.arch with scount := v } = { f s.arch with scount := v }) :
    exec (.mixFill n) { s with arch := f s.arch } = Said.mapArch f (exec (.mixFill n) s) := by
  by_cases h : s.arch.curNote = 0#7
  · rw [exec_mixFill_silent h, exec_mixFill_silent (hnote.trans h)]
    rfl
  · rw [exec_mixFill_sounding h, exec_mixFill_sounding (s := { s with arch := f s.arch }) (hnote.trans_ne h)]
    have hadvance := hset (s.arch.scount + BitVec.ofNat 32 n.toNat)
    simp only [fillSamples_congr s.params hosc hnote hcount, hcount, hadvance, Said.mapArch, State.emitAll,
      State.advanceScount]

end

/-! ### Who reads each register: one theorem per row of R63 -/

theorem exec_withTrackerOf {i : Instr} (hbyte : i.isMidiByte = false) (hget : i ≠ .midiGetNote) (hlatch : i ≠ .noteLatch)
    (s : State) (b : Arch) : exec i { s with arch := Said.withTrackerOf s.arch b } =
      Said.mapArch (Said.withTrackerOf · b) (exec i s) := by
  cases hslot : i.opcode.takesSlot with
  | true => exact exec_slot_mapArch (Said.withTrackerOf · b) hslot rfl (fun _ => rfl) fun _ => rfl
  | false =>
    cases i with
    | midiByte => cases hbyte
    | midiGetNote => exact absurd rfl hget
    | noteLatch => exact absurd rfl hlatch
    | mixFill n => exact exec_mixFill_mapArch (Said.withTrackerOf · b) n rfl rfl rfl fun _ => rfl
    | nop | freqInit | freqRead | mixSetNote | mixGetNote | mixGetActive | mixGetScount | getStatus => rfl
    | _ => cases hslot

theorem exec_withOsc {i : Instr} (hset : i.isOscSet = false) (hget : i.isOscGet = false) (hactive : i ≠ .mixGetActive)
    (hfill : i.isFill = false) (s : State) (v : Vector Osc 3) : exec i { s with arch := { s.arch with osc := v } } =
      Said.mapArch (fun a => { a with osc := v }) (exec i s) := by
  cases i with
  | mixGetActive => exact absurd rfl hactive
  | mixFill => cases hfill
  | midiByte b => exact exec_midiByte_mapArch (fun a => { a with osc := v }) (fun _ => rfl) (fun _ _ => rfl) b s
  | nop | freqInit | freqRead | mixSetNote | mixGetNote | mixGetScount | midiGetNote | noteLatch | getStatus => rfl
  | oscSetWave | oscSetLevel | oscSetCent | oscSetSemi => cases hset
  | _ => cases hget

theorem exec_withCurNote {i : Instr} (hset : i.isSetNote = false) (hlatch : i ≠ .noteLatch) (hget : i ≠ .mixGetNote)
    (hfill : i.isFill = false) (s : State) (n : BitVec 7) : exec i { s with arch := { s.arch with curNote := n } } =
      Said.mapArch (fun a => { a with curNote := n }) (exec i s) := by
  cases hslot : i.opcode.takesSlot with
  | true => exact exec_slot_mapArch (fun a => { a with curNote := n }) hslot rfl (fun _ => rfl) fun _ => rfl
  | false =>
    cases i with
    | mixSetNote => cases hset
    | noteLatch => exact absurd rfl hlatch
    | mixGetNote => exact absurd rfl hget
    | mixFill => cases hfill
    | midiByte b => exact exec_midiByte_mapArch (fun a => { a with curNote := n }) (fun _ => rfl) (fun _ _ => rfl) b s
    | nop | freqInit | freqRead | mixGetActive | mixGetScount | midiGetNote | getStatus => rfl
    | _ => cases hslot

theorem exec_withScount {i : Instr} (hfill : i.isFill = false) (hget : i ≠ .mixGetScount) (s : State) (n : Word) :
    exec i { s with arch := { s.arch with scount := n } } =
      Said.mapArch (fun a => { a with scount := n }) (exec i s) := by
  cases hslot : i.opcode.takesSlot with
  | true => exact exec_slot_mapArch (fun a => { a with scount := n }) hslot rfl (fun _ => rfl) fun _ => rfl
  | false =>
    cases i with
    | mixFill => cases hfill
    | mixGetScount => exact absurd rfl hget
    | midiByte b => exact exec_midiByte_mapArch (fun a => { a with scount := n }) (fun _ => rfl) (fun _ _ => rfl) b s
    | nop | freqInit | freqRead | mixSetNote | mixGetNote | mixGetActive | midiGetNote | noteLatch | getStatus => rfl
    | _ => cases hslot

theorem exec_withErr {i : Instr} (hwf : i.wellFormed = true) (hget : i ≠ .getStatus) (s : State) (e : Bool) :
    exec i { s with arch := { s.arch with err := e } } = Said.mapArch (fun a => { a with err := e }) (exec i s) := by
  cases hslot : i.opcode.takesSlot with
  | true =>
    refine exec_slot_mapArch (fun a => { a with err := e }) hslot rfl (fun _ => rfl) fun hill => ?_
    cases hwf.symm.trans hill
  | false =>
    cases i with
    | getStatus => exact absurd rfl hget
    | mixFill n => exact exec_mixFill_mapArch (fun a => { a with err := e }) n rfl rfl rfl fun _ => rfl
    | midiByte b => exact exec_midiByte_mapArch (fun a => { a with err := e }) (fun _ => rfl) (fun _ _ => rfl) b s
    | nop | freqInit | freqRead | mixSetNote | mixGetNote | mixGetActive | mixGetScount | midiGetNote | noteLatch => rfl
    | _ => cases hslot

/-! ### A byte and the commands that do not see the tracker (R64) -/

/-- A byte can come before or after a command that neither reads nor writes the tracker: the command runs alike whatever
the tracker holds, the byte finds the tracker as it was. -/
theorem exec_midiByte_comm {i : Instr} (hbyte : i.isMidiByte = false) (hget : i ≠ .midiGetNote) (hlatch : i ≠ .noteLatch)
    (b : Byte) (s : State) :
    Said.thenExec (exec (.midiByte b) s) i = Said.thenExec (exec i s) (.midiByte b) := by
  obtain ⟨t, ht, he⟩ := exec_effect i s
  obtain ⟨hctr, hact, hmst, hmnote⟩ := he.sameTracker hbyte
  have htracker : Said.withTrackerOf t.arch s.arch = t.arch := by
    rw [Said.withTrackerOf, ← hctr, ← hact, ← hmst, ← hmnote]
  have hbefore : s.arch.midiByte b = Said.withTrackerOf s.arch (s.arch.midiByte b) :=
    midiByte_withTrackerOf s.arch s.arch b
  have hafter : t.arch.midiByte b = Said.withTrackerOf t.arch (s.arch.midiByte b) := by
    rw [← midiByte_withTrackerOf, htracker]
  calc Said.thenExec (exec (.midiByte b) s) i = exec i { s with arch := s.arch.midiByte b } := rfl
    _ = exec i { s with arch := Said.withTrackerOf s.arch (s.arch.midiByte b) } := by rw [← hbefore]
    _ = Said.mapArch (Said.withTrackerOf · (s.arch.midiByte b)) (exec i s) := exec_withTrackerOf hbyte hget hlatch s _
    _ = .next { t with arch := t.arch.midiByte b } := by rw [ht, hafter]; rfl
    _ = Said.thenExec (exec i s) (.midiByte b) := by rw [ht]; rfl

/-- NOTE_LATCH tells its place from a byte that changes the note it latches. -/
theorem noteLatch_midiByte_ne {b : Byte} {s : State}
    (h : clampNote (s.arch.midiByte b).sounding ≠ clampNote s.arch.sounding) :
    Said.thenExec (exec (.midiByte b) s) .noteLatch ≠ Said.thenExec (exec .noteLatch s) (.midiByte b) := by
  intro heq
  have hnote : clampNote (s.arch.midiByte b).sounding =
      ((s.setCurNote (clampNote s.arch.sounding)).arch.midiByte b).curNote :=
    congrArg (·.arch.curNote) (Host.Outcome.next.inj heq)
  obtain ⟨-, hframe, -⟩ := midiByte_frame (s.setCurNote (clampNote s.arch.sounding)).arch b
  exact h (hnote.trans hframe)

/-- MIDI_GET_NOTE tells its place from a byte that changes the answer. -/
theorem midiGetNote_midiByte_ne {b : Byte} {s : State}
    (h : BitVec.ofNat 32 (s.arch.midiByte b).sounding ≠ BitVec.ofNat 32 s.arch.sounding) :
    Said.thenExec (exec (.midiByte b) s) .midiGetNote ≠ Said.thenExec (exec .midiGetNote s) (.midiByte b) := by
  intro heq
  have hport : s.outPort ++ [PortWord.response (BitVec.ofNat 32 (s.arch.midiByte b).sounding)] =
      s.outPort ++ [.response (BitVec.ofNat 32 s.arch.sounding)] :=
    congrArg (·.outPort) (Host.Outcome.next.inj heq)
  simp only [List.append_cancel_left_eq, List.cons.injEq, PortWord.response.injEq, and_true] at hport
  exact h hport

/-- The block after reset, but in the middle of a message for note 60: the next data byte is read in the parser state `m`. -/
def midMessage (m : ParserState) : State := { State.reset with arch := { Arch.reset with mst := m, mnote := 60#8 } }

/-- No note sounds in the middle of a note-on for note 60, and the note sounds after its velocity byte. -/
theorem sounding_midMessage : (midMessage .onVel).arch.sounding = 0 ∧
    ((midMessage .onVel).arch.midiByte 1#8).sounding = 60 := by decide +kernel

/-! ### Repeating a command (R54) -/

/-- A setting command leaves the state as it is when repeated. -/
theorem exec_setting_idempotent {i : Instr} (h : i.isOscSet = true ∨ i.isSetNote = true ∨ i = .noteLatch) (s : State) :
    ∃ t, exec i s = .next t ∧ exec i t = .next t := by
  rcases h with hosc | hnote | rfl
  · have hslot : i.opcode.takesSlot = true := by
      cases i with
      | oscSetWave | oscSetLevel | oscSetCent | oscSetSemi => rfl
      | _ => cases hosc
    cases hwf : i.wellFormed with
    | false => exact ⟨_, exec_of_not_wellFormed hwf s, exec_of_not_wellFormed hwf _⟩
    | true =>
      rcases exec_slot_cases hslot hwf with ⟨hread, -⟩ | ⟨-, k, write, hidem, h⟩
      · cases hread.symm.trans (Instr.not_isRead_of_isOscSet hosc)
      · refine ⟨_, h s, (h _).trans ?_⟩
        rw [State.setOsc_getElem, if_pos rfl, hidem, State.setOsc_setOsc]
  · cases i with
    | mixSetNote n => exact ⟨_, rfl, rfl⟩
    | _ => cases hnote
  · exact ⟨_, rfl, rfl⟩

/-- A fill with a note set and a nonzero length moves S and keeps the note. -/
theorem exec_mixFill_moves {n : Half} {s : State} (hnote : s.arch.curNote ≠ 0#7) (hn : n ≠ 0#16) :
    ∃ t, exec (.mixFill n) s = .next t ∧ t.arch.curNote ≠ 0#7 ∧ t.arch ≠ s.arch := by
  refine ⟨_, exec_mixFill_sounding hnote n, hnote, fun h => hn ?_⟩
  have hcount : s.arch.scount + BitVec.ofNat 32 n.toNat = s.arch.scount := congrArg Arch.scount h
  bv_omega

/-! ### The obligations -/

/-- Settles O19: one theorem per row of R63. -/
theorem onlyTheNamedCommandsReadEachRegister : Obligations.OnlyTheNamedCommandsReadEachRegister :=
  ⟨fun _ s b hbyte hget hlatch => exec_withTrackerOf hbyte hget hlatch s b,
    fun _ s v hset hget hactive hfill => exec_withOsc hset hget hactive hfill s v,
    fun _ s n hset hlatch hget hfill => exec_withCurNote hset hlatch hget hfill s n,
    fun _ s n hfill hget => exec_withScount hfill hget s n,
    fun _ s e hwf hget => exec_withErr hwf hget s e⟩

/-- Settles O22: R64's commands do not see the tracker; the other two do, where the byte completes a note-on. -/
theorem midiBytesCommuteWithTheMixer : Obligations.MidiBytesCommuteWithTheMixer := by
  obtain ⟨hsilent, hsounds⟩ := sounding_midMessage
  refine ⟨fun b i s h => ?_, ⟨1#8, midMessage .onVel, fun h => ?_⟩, ⟨1#8, midMessage .onVel, fun h => ?_⟩⟩
  · obtain ⟨hbyte, hget, hlatch⟩ := Instr.tracker_unused_of_apartFromMidi h
    exact exec_midiByte_comm hbyte hget hlatch b s
  · refine noteLatch_midiByte_ne ?_ h
    rw [hsilent, hsounds]
    decide
  · refine midiGetNote_midiByte_ne ?_ h
    rw [hsilent, hsounds]
    decide

/-- Settles O23: reads, settings and the exception by what they do from every state; a fill moves S, and a data byte after
a note-on status moves the parser twice. -/
theorem readsAndSettingsAreIdempotent : Obligations.ReadsAndSettingsAreIdempotent := by
  refine ⟨fun i s hread hwf => ?_, fun _ => rfl, fun i s h => exec_setting_idempotent h s,
    fun i s h => exec_of_not_wellFormed h _, fun n s hnote hn => ?_, 60#8, midMessage .onNote, _, _, rfl, rfl, fun h => ?_⟩
  · obtain ⟨view, hview, h⟩ := exec_of_isRead hread hwf
    refine ⟨view s, h s, (h (s.respond (view s))).trans ?_⟩
    rw [hview]
    rfl
  · obtain ⟨t, ht, hnote', hts⟩ := exec_mixFill_moves hnote hn
    obtain ⟨u, hu, -, hut⟩ := exec_mixFill_moves hnote' hn
    exact ⟨t, u, ht, hu, hts, hut⟩
  · exact absurd (congrArg (·.arch.mst) h) (by decide)

end Sys2Proof.Machine
end

section
/-!
SUPPORT and PROOFS. The family of spec/30_encoding.md: the command word (R70-R77), the assembler's table (R82) and the
pseudo-instructions (R83).
-/

namespace Sys2Proof

/-! ### The command word -/

/-- A word that decodes has the fields of its command: RES is 0, and no unused bit of K or IMM is set. -/
theorem encode_of_decode {w : Word} {i : Instr} (h : decode w = .instr i) : encode i = w := by
  obtain ⟨o, ho, hres, hk, himm, rfl, -⟩ := decode_eq_instr h
  rw [encode, Opcode.toInstr_opcode, Opcode.toInstr_slot hk, Opcode.toInstr_imm himm, Opcode.code_of_ofCode? ho,
    packWord_fields hres]

/-- The word of a well-formed command is legal. -/
theorem legal_encode {i : Instr} (h : i.wellFormed = true) : legal (encode i) :=
  legal_of_decode (decode_encode h)

/-- The decoder accepts every legal word. -/
theorem decode_of_legal {w : Word} (h : legal w) : ∃ i, decode w = .instr i := by
  obtain ⟨o, ho, hres, hk, himm, hwf⟩ := (legal_iff w).1 h
  exact ⟨_, decode_of_fields ho hres hk himm hwf⟩

/-- A word whose OP is unassigned is illegal. -/
theorem not_legal_of_ofCode?_none {w : Word} (h : Opcode.ofCode? (opField w) = none) : ¬legal w := by
  intro hl
  obtain ⟨o, ho, -⟩ := (legal_iff w).1 hl
  cases h.symm.trans ho

/-! ### Words as sums (R82, R83) -/

/-- A word with an operand and no slot is its base word plus the operand. -/
theorem packWord_operand {n : Nat} (hn : n ≤ 16) (op : BitVec 8) (v : BitVec n) :
    packWord op 0#2 (v.setWidth 16) = packWord op 0#2 0#16 + v.setWidth 32 := by
  have hv : v.toNat < 2 ^ 16 := v.isLt.trans_le (Nat.pow_le_pow_right (by decide) hn)
  apply BitVec.eq_of_toNat_eq
  have := op.isLt
  simp only [BitVec.toNat_add, packWord_toNat, BitVec.toNat_setWidth, BitVec.toNat_ofNat]
  omega

theorem encode_midiByte (b : Byte) : encode (.midiByte b) = 0x30000000#32 + b.setWidth 32 :=
  packWord_operand (by decide) 0x30#8 b

theorem encode_mixFill (n : Half) : encode (.mixFill n) = 0x21000000#32 + n.setWidth 32 := by
  have h := packWord_operand (Nat.le_refl 16) 0x21#8 n
  rwa [BitVec.setWidth_eq] at h

end Sys2Proof

namespace Sys2Proof.Machine

/-- An illegal word raises IllegalCommand (R241). -/
theorem raises_of_not_legal {w : Word} (h : ¬legal w) : Said.Raises w :=
  fun _ _ hs => step_of_not_legal h hs

/-! ### The obligations of the command word -/

/-- Settles O1: the fields of the packed word are the command's own. -/
theorem decodeOfEncodeIsTheCommand : Obligations.DecodeOfEncodeIsTheCommand :=
  fun _ h => decode_encode h

/-- Settles O2: the decoder looks at every bit, so the fields of the command it reads are those of the word. -/
theorem encodeOfDecodeIsTheWord : Obligations.EncodeOfDecodeIsTheWord := by
  intro w i h
  obtain ⟨-, -, -, -, -, -, hwf⟩ := decode_eq_instr h
  exact ⟨hwf, encode_of_decode h⟩

/-- Settles O3: R77's conjuncts are the decoder's conditions, and a word that fails one raises. -/
theorem decoderAcceptsExactlyTheLegalWords : Obligations.DecoderAcceptsExactlyTheLegalWords :=
  ⟨fun _ => ⟨fun ⟨_, h⟩ => legal_of_decode h, decode_of_legal⟩, fun _ => raises_of_not_legal⟩

/-- Settles O4: the match under the mask is the decoder's conditions on OP, RES, K and IMM. -/
theorem opcodeRowsMatchUnderTheirMasks : Obligations.OpcodeRowsMatchUnderTheirMasks := by
  intro w o
  rw [and_mask_iff]
  constructor
  · rintro ⟨i, hd, ho⟩
    obtain ⟨o', hop, hres, hk, himm, rfl, hwf⟩ := decode_eq_instr hd
    rw [Opcode.toInstr_opcode] at ho
    subst ho
    exact ⟨⟨(Opcode.code_of_ofCode? hop).symm, hres, hk, himm⟩, hwf⟩
  · rintro ⟨⟨hop, hres, hk, himm⟩, hwf⟩
    have hcode : Opcode.ofCode? (opField w) = some o := by rw [hop, Opcode.ofCode?_code]
    exact ⟨_, decode_of_fields hcode hres hk himm hwf, Opcode.toInstr_opcode o _ _⟩

/-- Settles O5: the codes counted one by one; no row of R76 has an unassigned one. -/
theorem unassignedOperationCodesAreIllegal : Obligations.UnassignedOperationCodesAreIllegal :=
  ⟨by decide +kernel, by decide +kernel, fun _ h => raises_of_not_legal (not_legal_of_ofCode?_none h)⟩

/-- Settles O6: each word is decoded. -/
theorem writtenOutWordsDecode : Obligations.WrittenOutWordsDecode := by
  unfold Obligations.WrittenOutWordsDecode
  decide

/-- Settles O7: an operand adds to its command's base word. -/
theorem pseudoInstructionsExpand : Obligations.PseudoInstructionsExpand := by
  refine ⟨fun n v => ?_, fun n => ?_, by decide, by decide, fun n => ?_, by decide⟩
  · simp only [Pseudo.words, Pseudo.expand, List.map_cons, List.map_nil, encode_midiByte]
    rfl
  · simp only [Pseudo.words, Pseudo.expand, List.map_cons, List.map_nil, encode_midiByte]
    rfl
  · simp only [Pseudo.words, Pseudo.expand, List.map_cons, List.map_nil, encode_mixFill]
    rfl

end Sys2Proof.Machine
end

section
/-!
SUPPORT and PROOFS. The assembler's table (spec/30_encoding.md R82): one lemma per shape of a row, by whether it takes a
slot and an operand, and the obligation assembled from them row by row.
-/

namespace Sys2Proof.Machine

/-! ### Operand values and their fields -/

/-- The bits of a number that fits a field unsigned are the number. -/
theorem toNat_ofInt_of_fits {n : Nat} {v : Int} (h0 : 0 ≤ v) (h : v < 2 ^ n) :
    ((BitVec.ofInt n v).toNat : Int) = v := by
  rw [BitVec.toNat_ofInt, Int.toNat_of_nonneg (Int.emod_nonneg _ (by simp))]
  exact Int.emod_eq_of_lt h0 (by exact_mod_cast h)

/-- An operand's field is the operand taken modulo the field's size. -/
theorem toNat_ofInt_byte (v : Int) : ((BitVec.ofInt 8 v).toNat : Int) = v % 256 := by
  rw [BitVec.toNat_ofInt]
  omega

/-- A field read unsigned is an operand that spells it. -/
theorem field?_toNat {n : Nat} {hi : Int} (b : BitVec n) (h : (b.toNat : Int) ≤ hi) : field? n 0 hi b.toNat = some b := by
  rw [field?_of_fits ⟨Int.natCast_nonneg _, h⟩, BitVec.ofInt_natCast, BitVec.ofNat_toNat, BitVec.setWidth_eq]

/-- A field read as two's complement is an operand that spells it. -/
theorem field?_toInt {n : Nat} {lo hi : Int} (b : BitVec n) (h : lo ≤ b.toInt ∧ b.toInt ≤ hi) :
    field? n lo hi b.toInt = some b := by
  rw [field?_of_fits h, BitVec.ofInt_toInt]

theorem slotLegal_ofInt {k : Int} (h : 0 ≤ k ∧ k ≤ 2) : slotLegal (BitVec.ofInt 2 k) = true := by
  have := toNat_ofInt_of_fits (n := 2) h.1 (by omega)
  rw [slotLegal_iff]
  omega

theorem waveCodeLegal_ofInt {v : Int} (h : 0 ≤ v ∧ v ≤ 2) : waveCodeLegal (BitVec.ofInt 2 v) = true := slotLegal_ofInt h

theorem levelLegal_ofInt {v : Int} (h : 0 ≤ v ∧ v ≤ 10) : levelLegal (BitVec.ofInt 8 v) = true := by
  have := toNat_ofInt_of_fits (n := 8) h.1 (by omega)
  exact decide_eq_true (by omega)

theorem centLegal_ofInt {v : Int} (h : -100 ≤ v ∧ v ≤ 100) : centLegal (BitVec.ofInt 8 v) = true := by
  have hv : (BitVec.ofInt 8 v).toInt = v := BitVec.toInt_ofInt_eq_self (by decide) (by omega) (by omega)
  exact decide_eq_true (by omega)

/-! ### The encoding column (R82) -/

theorem row_base (o : Opcode) : (Said.row o).1 = (o.code.toNat : Int) * 2 ^ 24 := by cases o <;> rfl

/-- A command word as an exact integer. -/
theorem packWord_eq_ofInt (op : BitVec 8) (k : SlotSel) (imm : Half) :
    packWord op k imm = BitVec.ofInt 32 ((op.toNat : Int) * 2 ^ 24 + k.toNat * 65536 + imm.toNat) := by
  have := op.isLt
  have := k.isLt
  apply BitVec.eq_of_toNat_eq
  rw [packWord_toNat, BitVec.toNat_ofInt]
  omega

/-- What the assembler answers for an operation and its operands is what R82 says: the word of the encoding column, and
only as the word of a well-formed command of that operation. -/
def Assembles (o : Opcode) (args : List Int) (answer : Option Instr) : Prop :=
  answer.map encode = Said.assembled o args ∧ ∀ i, answer = some i → i.opcode = o ∧ i.wellFormed = true

theorem assembles_refused {o : Opcode} {args : List Int} (h : Said.assembled o args = none) : Assembles o args none :=
  ⟨h.symm, nofun⟩

theorem assembles_accepted {o : Opcode} {args : List Int} {i : Instr} (h : Said.assembled o args = some (encode i))
    (ho : i.opcode = o) (hwf : i.wellFormed = true) : Assembles o args (some i) :=
  ⟨h.symm, by rintro _ ⟨⟩; exact ⟨ho, hwf⟩⟩

section
variable {o : Opcode} {base lo hi m : Int} {n : Nat}

/-- An operation with one operand and no slot. -/
theorem assembles_operand {g : BitVec n → Instr} (hrow : Said.row o = (base, false, some (lo, hi, m)))
    (hg : ∀ b, (g b).opcode = o ∧ (g b).slot = 0#2 ∧ (g b).imm = b.setWidth 16 ∧ (g b).wellFormed = true) (hn : n ≤ 16)
    (hm : ∀ v, lo ≤ v ∧ v ≤ hi → ((BitVec.ofInt n v).toNat : Int) = v % m) {v : Int} :
    Assembles o [v] ((field? n lo hi v).map g) := by
  have hsaid : Said.assembled o [v] = if lo ≤ v ∧ v ≤ hi then some (BitVec.ofInt 32 (base + v % m)) else none := by
    simp only [Said.assembled, hrow]
  by_cases h : lo ≤ v ∧ v ≤ hi
  · obtain ⟨ho, hslot, himm, hwf⟩ := hg (BitVec.ofInt n v)
    have hbase := row_base o
    rw [field?_of_fits h]
    refine assembles_accepted ?_ ho hwf
    rw [hrow] at hbase
    rw [hsaid, if_pos h, encode, ho, hslot, himm, packWord_eq_ofInt, ← hbase,
      BitVec.toNat_setWidth_of_le hn, hm v h]
    simp
  · rw [field?_of_misfit h]
    exact assembles_refused (hsaid.trans (if_neg h))

/-- An operation with a slot alone. -/
theorem assembles_slot {g : SlotSel → Instr} (hrow : Said.row o = (base, true, none))
    (hg : ∀ k, (g k).opcode = o ∧ (g k).slot = k ∧ (g k).imm = 0#16 ∧ (g k).wellFormed = slotLegal k) {k : Int} :
    Assembles o [k] ((field? 2 0 2 k).map g) := by
  have hsaid : Said.assembled o [k] = if 0 ≤ k ∧ k ≤ 2 then some (BitVec.ofInt 32 (base + k * 65536)) else none := by
    simp only [Said.assembled, hrow]
  by_cases h : 0 ≤ k ∧ k ≤ 2
  · obtain ⟨ho, hslot, himm, hwf⟩ := hg (BitVec.ofInt 2 k)
    have hbase := row_base o
    rw [field?_of_fits h]
    refine assembles_accepted ?_ ho (hwf.trans (slotLegal_ofInt h))
    rw [hrow] at hbase
    rw [hsaid, if_pos h, encode, ho, hslot, himm, packWord_eq_ofInt, ← hbase,
      toNat_ofInt_of_fits h.1 (by omega)]
    simp
  · rw [field?_of_misfit h]
    exact assembles_refused (hsaid.trans (if_neg h))

/-- An operation with a slot and an operand. -/
theorem assembles_slot_operand {g : SlotSel → BitVec n → Instr} (hrow : Said.row o = (base, true, some (lo, hi, m)))
    (hg : ∀ k b, (g k b).opcode = o ∧ (g k b).slot = k ∧ (g k b).imm = b.setWidth 16)
    (hwf : ∀ k v, slotLegal k = true → lo ≤ v ∧ v ≤ hi → (g k (BitVec.ofInt n v)).wellFormed = true) (hn : n ≤ 16)
    (hm : ∀ v, lo ≤ v ∧ v ≤ hi → ((BitVec.ofInt n v).toNat : Int) = v % m) {k v : Int} :
    Assembles o [k, v] ((field? 2 0 2 k).bind fun k => (field? n lo hi v).map (g k)) := by
  have hsaid : Said.assembled o [k, v] = if (0 ≤ k ∧ k ≤ 2) ∧ lo ≤ v ∧ v ≤ hi then
      some (BitVec.ofInt 32 (base + k * 65536 + v % m)) else none := by
    simp only [Said.assembled, hrow]
  by_cases hk : 0 ≤ k ∧ k ≤ 2
  · rw [field?_of_fits hk, Option.bind_some]
    by_cases hv : lo ≤ v ∧ v ≤ hi
    · obtain ⟨ho, hslot, himm⟩ := hg (BitVec.ofInt 2 k) (BitVec.ofInt n v)
      have hbase := row_base o
      rw [field?_of_fits hv]
      refine assembles_accepted ?_ ho (hwf _ v (slotLegal_ofInt hk) hv)
      rw [hrow] at hbase
      rw [hsaid, if_pos ⟨hk, hv⟩, encode, ho, hslot, himm, packWord_eq_ofInt, ← hbase,
        toNat_ofInt_of_fits hk.1 (by omega), BitVec.toNat_setWidth_of_le hn, hm v hv]
    · rw [field?_of_misfit hv]
      exact assembles_refused (hsaid.trans (if_neg fun h => hv h.2))
  · rw [field?_of_misfit hk]
    exact assembles_refused (hsaid.trans (if_neg fun h => hk h.1))

end

/-- The assembler answers what R82 says, row by row; a wrong number of operands is refused. -/
theorem assembleOp?_assembles (o : Opcode) (args : List Int) : Assembles o args (assembleOp? o args) := by
  have hbyte : ∀ {lo hi : Int} (v : Int), lo ≤ v ∧ v ≤ hi → ((BitVec.ofInt 8 v).toNat : Int) = v % 256 :=
    fun v _ => toNat_ofInt_byte v
  cases o with
  | nop | freqInit | mixGetNote | mixGetActive | mixGetScount | midiGetNote | noteLatch | getStatus =>
    match args with
    | [] => exact assembles_accepted (by decide) rfl rfl
    | _ :: _ => exact assembles_refused rfl
  | freqRead | mixSetNote | midiByte =>
    match args with
    | [v] =>
      refine assembles_operand rfl ?_ (by decide) hbyte
      exact fun _ => ⟨rfl, rfl, rfl, rfl⟩
    | [] | _ :: _ :: _ => exact assembles_refused rfl
  | mixFill =>
    match args with
    | [v] =>
      refine assembles_operand rfl ?_ (by decide) fun v hv => ?_
      · exact fun n => ⟨rfl, rfl, (BitVec.setWidth_eq n).symm, rfl⟩
      · rw [toNat_ofInt_of_fits hv.1 (by omega)]
        omega
    | [] | _ :: _ :: _ => exact assembles_refused rfl
  | oscGetWave | oscGetLevel | oscGetCent | oscGetSemi =>
    match args with
    | [k] =>
      refine assembles_slot rfl ?_
      exact fun _ => ⟨rfl, rfl, rfl, rfl⟩
    | [] | _ :: _ :: _ => exact assembles_refused rfl
  | oscSetSemi | oscGetInc =>
    match args with
    | [k, v] =>
      refine assembles_slot_operand rfl ?_ ?_ (by decide) hbyte
      · exact fun _ _ => ⟨rfl, rfl, rfl⟩
      · exact fun _ _ hk _ => hk
    | [] | [_] | _ :: _ :: _ :: _ => exact assembles_refused rfl
  | oscSetLevel =>
    match args with
    | [k, v] =>
      refine assembles_slot_operand rfl ?_ ?_ (by decide) hbyte
      · exact fun _ _ => ⟨rfl, rfl, rfl⟩
      · exact fun _ _ hk hv => Bool.and_eq_true_iff.2 ⟨hk, levelLegal_ofInt hv⟩
    | [] | [_] | _ :: _ :: _ :: _ => exact assembles_refused rfl
  | oscSetCent =>
    match args with
    | [k, v] =>
      refine assembles_slot_operand rfl ?_ ?_ (by decide) hbyte
      · exact fun _ _ => ⟨rfl, rfl, rfl⟩
      · exact fun _ _ hk hv => Bool.and_eq_true_iff.2 ⟨hk, centLegal_ofInt hv⟩
    | [] | [_] | _ :: _ :: _ :: _ => exact assembles_refused rfl
  | oscSetWave =>
    match args with
    | [k, v] =>
      refine assembles_slot_operand rfl ?_ ?_ (by decide) fun v hv => ?_
      · exact fun _ _ => ⟨rfl, rfl, rfl⟩
      · exact fun _ _ hk hv => Bool.and_eq_true_iff.2 ⟨hk, waveCodeLegal_ofInt hv⟩
      · rw [toNat_ofInt_of_fits hv.1 (by omega)]
        omega
    | [] | [_] | _ :: _ :: _ :: _ => exact assembles_refused rfl

/-! ### Every well-formed command can be written -/

/-- The operands a command is written with, in R82's order. -/
def operandsOf : Instr → List Int
  | .oscSetWave k c => [k.toNat, c.toNat]
  | .oscSetLevel k v | .oscGetInc k v => [k.toNat, v.toNat]
  | .oscSetCent k v | .oscSetSemi k v => [k.toNat, v.toInt]
  | .oscGetWave k | .oscGetLevel k | .oscGetCent k | .oscGetSemi k => [k.toNat]
  | .freqRead v | .mixSetNote v | .midiByte v => [v.toNat]
  | .mixFill n => [n.toNat]
  | .nop | .freqInit | .mixGetNote | .mixGetActive | .mixGetScount | .midiGetNote | .noteLatch | .getStatus => []

theorem field?_slot {k : SlotSel} (h : slotLegal k = true) : field? 2 0 2 k.toNat = some k :=
  field?_toNat k (by exact_mod_cast (slotLegal_iff k).1 h)

theorem field?_byte (b : Byte) : field? 8 0 255 b.toNat = some b := field?_toNat b (by have := b.isLt; omega)

/-- The operands of a well-formed command give the command. -/
theorem assembleOp?_operandsOf {i : Instr} (h : i.wellFormed = true) : assembleOp? i.opcode (operandsOf i) = some i := by
  cases i with
  | nop | freqInit | mixGetNote | mixGetActive | mixGetScount | midiGetNote | noteLatch | getStatus => rfl
  | freqRead v | mixSetNote v | midiByte v =>
    simp only [Instr.opcode, operandsOf, assembleOp?, field?_byte, Option.map_some]
  | mixFill n =>
    have hn : (n.toNat : Int) ≤ 65535 := by have := n.isLt; omega
    simp only [Instr.opcode, operandsOf, assembleOp?, field?_toNat n hn, Option.map_some]
  | oscGetWave k | oscGetLevel k | oscGetCent k | oscGetSemi k =>
    simp only [Instr.opcode, operandsOf, assembleOp?, field?_slot h, Option.map_some]
  | oscGetInc k v =>
    simp only [Instr.opcode, operandsOf, assembleOp?, field?_slot h, field?_byte, Option.bind_some, Option.map_some]
  | oscSetSemi k v =>
    have hv : -128 ≤ v.toInt ∧ v.toInt ≤ 127 := by have := v.toInt_lt; have := v.le_toInt; omega
    simp only [Instr.opcode, operandsOf, assembleOp?, field?_slot h, field?_toInt v hv, Option.bind_some,
      Option.map_some]
  | oscSetWave k c =>
    obtain ⟨hk, hc⟩ := Bool.and_eq_true_iff.1 h
    simp only [Instr.opcode, operandsOf, assembleOp?, field?_slot hk, field?_slot (k := c) hc, Option.bind_some,
      Option.map_some]
  | oscSetLevel k v =>
    obtain ⟨hk, hv⟩ := Bool.and_eq_true_iff.1 h
    have hv : (v.toNat : Int) ≤ 10 := by exact_mod_cast of_decide_eq_true hv
    simp only [Instr.opcode, operandsOf, assembleOp?, field?_slot hk, field?_toNat v hv, Option.bind_some,
      Option.map_some]
  | oscSetCent k v =>
    obtain ⟨hk, hv⟩ := Bool.and_eq_true_iff.1 h
    simp only [Instr.opcode, operandsOf, assembleOp?, field?_slot hk, field?_toInt v (of_decide_eq_true hv),
      Option.bind_some, Option.map_some]

/-- Settles O8: the column and the refusal by row; a command's own operands write it. -/
theorem assemblerWritesExactlyTheLegalCommands : Obligations.AssemblerWritesExactlyTheLegalCommands := by
  refine ⟨fun o args => (assembleOp?_assembles o args).1, fun o args i h => ?_,
    fun i h => ⟨_, assembleOp?_operandsOf h⟩⟩
  obtain ⟨ho, hwf⟩ := (assembleOp?_assembles o args).2 i h
  exact ⟨ho, legal_encode hwf⟩

end Sys2Proof.Machine
end

section
/-!
SUPPORT and PROOFS. The assembler's lines (spec/30_encoding.md R82, R83): a line is cut into the texts it was written from,
and a text reads as the operand it spells, or as none.
-/

namespace Sys2Proof.Machine

/-! ### Texts that spell an operand (R82) -/

theorem digitOf_decimal {c : Char} (h : '0' ≤ c ∧ c ≤ '9') : Said.digitOf c = c.toNat - 48 := if_pos h.2

theorem digitOf_upper {c : Char} (h : 'A' ≤ c ∧ c ≤ 'F') : Said.digitOf c = c.toNat - 55 := by
  have h9 : ¬c ≤ '9' := fun h9 => absurd (h.1.trans h9) (by decide)
  rw [Said.digitOf, if_neg h9, if_pos h.2]

theorem digitOf_lower {c : Char} (h : 'a' ≤ c ∧ c ≤ 'f') : Said.digitOf c = c.toNat - 87 := by
  have h9 : ¬c ≤ '9' := fun h9 => absurd (h.1.trans h9) (by decide)
  have hF : ¬c ≤ 'F' := fun hF => absurd (h.1.trans hF) (by decide)
  rw [Said.digitOf, if_neg h9, if_neg hF]

/-- A decimal digit, with its value as R82's digits have it. -/
theorem digitValue?_ten_iff (c : Char) (d : Nat) :
    digitValue? 10 c = some d ↔ ('0' ≤ c ∧ c ≤ '9') ∧ d = Said.digitOf c := by
  rw [digitValue?_ten]
  exact and_congr_right fun h => by rw [digitOf_decimal h]

/-- A hexadecimal digit, with its value as R82's digits have it. -/
theorem digitValue?_sixteen_iff (c : Char) (d : Nat) : digitValue? 16 c = some d ↔
    (('0' ≤ c ∧ c ≤ '9') ∨ ('A' ≤ c ∧ c ≤ 'F') ∨ ('a' ≤ c ∧ c ≤ 'f')) ∧ d = Said.digitOf c := by
  rw [digitValue?_sixteen, or_and_right, or_and_right]
  refine or_congr (and_congr_right fun h => ?_) (or_congr (and_congr_right fun h => ?_) (and_congr_right fun h => ?_))
  · rw [digitOf_decimal h]
  · rw [digitOf_upper h]
  · rw [digitOf_lower h]

/-- Digits of a base read as the value they have in it. -/
theorem digitsFrom?_valueOf {base : Nat} {isDigit : Char → Prop}
    (h : ∀ c d, digitValue? base c = some d ↔ isDigit c ∧ d = Said.digitOf c) (cs : List Char) (n : Nat) :
    digitsFrom? base 0 cs = some n ↔ (∀ c ∈ cs, isDigit c) ∧ n = Said.valueOf base cs := by
  simp only [digitsFrom?_eq_some h, Said.valueOf, Nat.mul_comm]

/-- A text reads as the number it spells, and one that spells none does not read. -/
theorem number?_iff (cs : List Char) (n : Nat) : number? cs = some n ↔ Said.SpellsNumber cs n := by
  unfold number? Said.SpellsNumber
  split
  · simp
  · simp
  · next ds hds =>
    have hne : ds ≠ [] := fun h => hds (by rw [h])
    rw [digitsFrom?_valueOf digitValue?_sixteen_iff]
    simp [hne]
  · next hne _ hhex =>
    rw [digitsFrom?_valueOf digitValue?_ten_iff]
    refine ⟨fun h => .inl ⟨hne, h⟩, ?_⟩
    rintro (⟨-, h⟩ | ⟨ds, hds, -⟩)
    · exact h
    · exact absurd hds (hhex ds)

/-- A text reads as the operand it spells, and one that spells none does not read. -/
theorem operand?_iff (cs : List Char) (v : Int) : operand? cs = some v ↔ Said.Spells cs v := by
  have hminus : ∀ ds n, ¬Said.SpellsNumber ('-' :: ds) n := by
    rintro ds n (⟨-, h, -⟩ | ⟨es, h, -⟩)
    · exact absurd (h '-' (List.mem_cons_self ..)) (by decide)
    · cases h
  unfold operand? Said.Spells
  split
  · next ds => simp [hminus, number?_iff, @eq_comm Int]
  · next hdash =>
    have hnone : ¬∃ (ds : List Char) (n : Nat), cs = '-' :: ds ∧ Said.SpellsNumber ds n ∧ v = -(n : Int) :=
      fun ⟨ds, _, hds, _⟩ => hdash ds hds
    rw [or_iff_left hnone]
    simp [number?_iff, @eq_comm Int]

/-! ### Cutting a line (R82) -/

section
variable {cs : List Char} (h : Said.isPlain cs)
include h

theorem noBlank_of_isPlain : ∀ c ∈ cs, isBlank c = false := by
  intro c hc
  obtain ⟨-, hsep⟩ := h
  have := hsep c hc
  simp_all [isBlank]

theorem noComma_of_isPlain : ∀ c ∈ cs, c ≠ ',' := by
  rintro _ hc rfl
  obtain ⟨-, hsep⟩ := h
  exact hsep ',' hc (by decide)

theorem noSemicolon_of_isPlain : ∀ c ∈ cs, c ≠ ';' := by
  rintro _ hc rfl
  obtain ⟨-, hsep⟩ := h
  exact hsep ';' hc (by decide)

end

/-- White space before the first piece goes with the trimming. -/
theorem cutCommas_space_trimmed (cs : List Char) :
    (cutCommas (' ' :: cs)).map trimBlanks = (cutCommas cs).map trimBlanks := by
  cases h : cutCommas cs with
  | nil => exact absurd h (cutCommas_ne_nil cs)
  | cons piece rest => simp [cutCommas, h]

section
variable {texts : List (List Char)} (hp : ∀ t ∈ texts, Said.isPlain t)
include hp

/-- The operands' text is cut into the operands. -/
theorem cutCommas_operandsText (hne : texts ≠ []) :
    (cutCommas (Said.operandsText texts)).map trimBlanks = texts := by
  induction texts with
  | nil => exact absurd rfl hne
  | cons t rest ih =>
    obtain ⟨ht, hrest⟩ := List.forall_mem_cons.1 hp
    have hcomma := noComma_of_isPlain ht
    have htrim : trimBlanks t = t := trimBlanks_of_noBlank (noBlank_of_isPlain ht)
    cases rest with
    | nil => rw [Said.operandsText, cutCommas_of_noComma hcomma, List.map_singleton, htrim]
    | cons u rest =>
      rw [Said.operandsText, cutCommas_append hcomma, List.map_cons, htrim, cutCommas_space_trimmed,
        ih hrest (List.cons_ne_nil u rest)]

theorem operandsText_ne_nil (hne : texts ≠ []) : Said.operandsText texts ≠ [] := by
  match texts with
  | [] => exact absurd rfl hne
  | [t] => exact (hp t (List.mem_singleton_self t)).1
  | t :: u :: rest => simp [Said.operandsText]

theorem operandsText_noSemicolon : ∀ c ∈ Said.operandsText texts, c ≠ ';' := by
  induction texts with
  | nil => nofun
  | cons t rest ih =>
    obtain ⟨ht, hrest⟩ := List.forall_mem_cons.1 hp
    have hsemi := noSemicolon_of_isPlain ht
    cases rest with
    | nil => exact hsemi
    | cons u rest =>
      simp only [Said.operandsText, List.mem_append, List.mem_cons]
      rintro c (hc | rfl | rfl | hc)
      · exact hsemi c hc
      · decide
      · decide
      · exact ih hrest c hc

/-- The operands' text begins with no white space. -/
theorem operandsText_head : ∀ c ∈ (Said.operandsText texts).head?, isBlank c = false := by
  cases texts with
  | nil => nofun
  | cons t rest =>
    obtain ⟨ht, -⟩ := List.forall_mem_cons.1 hp
    obtain ⟨d, ds, rfl⟩ := List.exists_cons_of_ne_nil ht.1
    have hd : isBlank d = false := noBlank_of_isPlain ht d (List.mem_cons_self ..)
    cases rest with
    | nil => rintro _ ⟨⟩; exact hd
    | cons u rest => rintro _ ⟨⟩; exact hd

/-- The operands' text ends with no white space. -/
theorem operandsText_getLast : ∀ c ∈ (Said.operandsText texts).getLast?, isBlank c = false := by
  induction texts with
  | nil => nofun
  | cons t rest ih =>
    obtain ⟨ht, hrest⟩ := List.forall_mem_cons.1 hp
    cases rest with
    | nil => exact fun c hc => noBlank_of_isPlain ht c (List.mem_of_mem_getLast? hc)
    | cons u rest =>
      obtain ⟨d, ds, hds⟩ := List.exists_cons_of_ne_nil (operandsText_ne_nil hrest (List.cons_ne_nil u rest))
      rw [Said.operandsText, List.getLast?_append_cons, List.getLast?_cons_cons, hds, List.getLast?_cons_cons, ← hds]
      exact ih hrest

/-- A line is cut into the texts it was written from, its comment left out. -/
theorem lineParts_lineText {name tail : List Char} (hn : Said.isPlain name) (ht : Said.isComment tail) :
    lineParts (Said.lineText name texts ++ tail) = (name, texts) := by
  have hname : ∀ c ∈ name, isBlank c = false ∧ c ≠ ';' := fun c hc =>
    ⟨noBlank_of_isPlain hn c hc, noSemicolon_of_isPlain hn c hc⟩
  have htail : tail.takeWhile (fun c => c ≠ ';') = [] := by
    rcases ht with rfl | ⟨rest, rfl⟩
    · rfl
    · rfl
  by_cases hne : texts = []
  · subst hne
    exact lineParts_bare hname htail
  · have hlast := operandsText_getLast hp
    have htrim := trimBlanks_eq_self (operandsText_head hp) hlast
    rw [Said.lineText, if_neg hne, lineParts_space hn.1 hname (operandsText_ne_nil hp hne)
      (operandsText_noSemicolon hp) htrim hlast htail, cutCommas_operandsText hp hne]

end

/-! ### Texts that stand alone -/

theorem isPlain_of_spellsNumber {cs : List Char} {n : Nat} (h : Said.SpellsNumber cs n) : Said.isPlain cs := by
  rcases h with ⟨hne, hd, -⟩ | ⟨ds, rfl, -, hd, -⟩
  · refine ⟨hne, fun c hc hsep => ?_⟩
    have hdigit := hd c hc
    fin_cases hsep <;> exact absurd hdigit (by decide)
  · refine ⟨List.cons_ne_nil _ _, fun c hc hsep => ?_⟩
    rcases List.mem_cons.1 hc with rfl | hc
    · exact absurd hsep (by decide)
    · rcases List.mem_cons.1 hc with rfl | hc
      · exact absurd hsep (by decide)
      · have hdigit := hd c hc
        fin_cases hsep <;> exact absurd hdigit (by decide)

/-- A text that spells an operand stands alone in a line. -/
theorem isPlain_of_spells {cs : List Char} {v : Int} (h : Said.Spells cs v) : Said.isPlain cs := by
  rcases h with ⟨n, hn, -⟩ | ⟨ds, n, rfl, hn, -⟩
  · exact isPlain_of_spellsNumber hn
  · refine ⟨List.cons_ne_nil _ _, List.forall_mem_cons.2 ⟨by decide, (isPlain_of_spellsNumber hn).2⟩⟩

theorem isPlain_of_forall₂_spells {texts : List (List Char)} {args : List Int}
    (h : List.Forall₂ Said.Spells texts args) : ∀ t ∈ texts, Said.isPlain t := by
  induction h with
  | nil => nofun
  | cons ht _ ih => exact List.forall_mem_cons.2 ⟨isPlain_of_spells ht, ih⟩

/-- A text is plain if it is not empty and each of its characters passes the test for separators. -/
theorem isPlain_of_all {cs : List Char} (hne : cs ≠ []) (h : cs.all (· ∉ [' ', '\t', ',', ';']) = true) :
    Said.isPlain cs :=
  ⟨hne, by simpa using h⟩

theorem isPlain_mnemonic (o : Opcode) : Said.isPlain (Said.mnemonic o).toList := by
  cases o <;> exact isPlain_of_all (by decide) (by decide)

theorem isPlain_otherMnemonics : ∀ m ∈ Said.otherMnemonics, Said.isPlain m.toList := by
  have h : ∀ m ∈ Said.otherMnemonics, m.toList ≠ [] ∧ m.toList.all (· ∉ [' ', '\t', ',', ';']) = true := by decide
  exact fun m hm => isPlain_of_all (h m hm).1 (h m hm).2

/-! ### The operands' values (R82) -/

/-- The three names of the wave codes. -/
def waveNames : List (List Char) := ["NONE".toList, "SQUARE".toList, "SAW".toList]

theorem isPlain_waveNames : ∀ cs ∈ waveNames, Said.isPlain cs := by
  have h : ∀ cs ∈ waveNames, cs ≠ [] ∧ cs.all (· ∉ [' ', '\t', ',', ';']) = true := by decide
  exact fun cs hcs => isPlain_of_all (h cs hcs).1 (h cs hcs).2

theorem waveName?_of_not_mem {cs : List Char} (h : cs ∉ waveNames) : waveName? cs = none := by
  simp_all [waveNames, waveName?]

/-- No name of a wave code spells an operand. -/
theorem operand?_waveNames : ∀ cs ∈ waveNames, operand? cs = none := by decide

theorem waveName?_of_spells {cs : List Char} {v : Int} (h : Said.Spells cs v) : waveName? cs = none := by
  refine waveName?_of_not_mem fun hmem => ?_
  cases (operand?_waveNames cs hmem).symm.trans ((operand?_iff cs v).2 h)

/-- A list of texts reads as the operands they spell, and as none if one of them spells none. -/
theorem mapM_operand?_iff (texts : List (List Char)) (args : List Int) :
    texts.mapM operand? = some args ↔ List.Forall₂ Said.Spells texts args := by
  induction texts generalizing args with
  | nil => simp [eq_comm]
  | cons t rest ih =>
    simp only [List.mapM_cons, Option.bind_eq_bind, Option.bind_eq_some_iff, Option.pure_def, Option.some.injEq,
      operand?_iff, ih, List.forall₂_cons_left_iff]
    constructor
    · rintro ⟨v, hv, vs, hvs, rfl⟩
      exact ⟨v, vs, hv, hvs, rfl⟩
    · rintro ⟨v, vs, hv, hvs, rfl⟩
      exact ⟨v, hv, vs, hvs, rfl⟩

/-- Only OSC_SET_WAVE with two operands reads a text in another way. -/
theorem operandValues?_eq_mapM {o : Option Opcode} {texts : List (List Char)}
    (h : ¬(o = some .oscSetWave ∧ texts.length = 2)) : operandValues? o texts = texts.mapM operand? := by
  unfold operandValues?
  split
  · exact absurd ⟨rfl, rfl⟩ h
  · rfl

/-- The texts of operands read as the operands, whatever the operation. -/
theorem operandValues?_of_spells (o : Option Opcode) {texts : List (List Char)} {args : List Int}
    (h : List.Forall₂ Said.Spells texts args) : operandValues? o texts = some args := by
  by_cases hw : o = some .oscSetWave ∧ texts.length = 2
  · obtain ⟨rfl, hlen⟩ := hw
    match texts, args, h with
    | [t, u], [k, v], .cons ht (.cons hu .nil) =>
      simp [operandValues?, (operand?_iff t k).2 ht, waveName?_of_spells hu, (operand?_iff u v).2 hu]
  · rw [operandValues?_eq_mapM hw, mapM_operand?_iff]
    exact h

/-- Where the texts read, each spells an operand, but for the name of a wave code in OSC_SET_WAVE's second place. -/
theorem spells_of_operandValues? {o : Option Opcode} {texts : List (List Char)} {args : List Int}
    (h : operandValues? o texts = some args) (i : Nat) (hi : i < texts.length) : (∃ v, Said.Spells texts[i] v) ∨
      (o = some .oscSetWave ∧ texts.length = 2 ∧ i = 1 ∧ texts[i] ∈ waveNames) := by
  by_cases hw : o = some .oscSetWave ∧ texts.length = 2
  · obtain ⟨rfl, hlen⟩ := hw
    obtain ⟨t, u, rfl⟩ := List.length_eq_two.1 hlen
    obtain ⟨k, hk, w, hw⟩ : ∃ k, operand? t = some k ∧ ∃ w, (waveName? u).or (operand? u) = some w := by
      simp only [operandValues?, Option.bind_eq_some_iff, Option.map_eq_some_iff] at h
      obtain ⟨k, hk, w, hw, -⟩ := h
      exact ⟨k, hk, w, hw⟩
    obtain rfl | rfl : i = 0 ∨ i = 1 := by simp at hi; omega
    · exact .inl ⟨k, (operand?_iff t k).1 hk⟩
    · by_cases hu : u ∈ waveNames
      · exact .inr ⟨rfl, rfl, rfl, hu⟩
      · rw [waveName?_of_not_mem hu, Option.none_or] at hw
        exact .inl ⟨w, (operand?_iff u w).1 hw⟩
  · rw [operandValues?_eq_mapM hw, mapM_operand?_iff, List.forall₂_iff_get] at h
    obtain ⟨hlen, hspells⟩ := h
    exact .inl ⟨_, hspells i hi (hlen ▸ hi)⟩

/-! ### Mnemonics -/

theorem opcodeNamed?_mnemonic (o : Opcode) : opcodeNamed? (Said.mnemonic o).toList = some o := by
  cases o <;> decide

theorem opcodeNamed?_otherMnemonics : ∀ m ∈ Said.otherMnemonics, opcodeNamed? m.toList = none := by decide +kernel

theorem opcodeNamed?_none {name : List Char} (h : ∀ o, name ≠ (Said.mnemonic o).toList) : opcodeNamed? name = none := by
  have hname : ∀ o, mnemonicOf o = Said.mnemonic o := fun o => by cases o <;> rfl
  rw [opcodeNamed?, List.find?_eq_none]
  intro o _
  rw [hname]
  simpa using (h o).symm

/-- A mnemonic that is no pseudo-instruction's is refused. -/
theorem assemblePseudo?_none {name : List Char} (h : ∀ m ∈ Said.otherMnemonics, name ≠ m.toList) (args : List Int) :
    assemblePseudo? name args = none := by
  simp only [Said.otherMnemonics, List.forall_mem_cons] at h
  obtain ⟨hon, hoff, hsilence, hosc, hperiod, hdefaults, -⟩ := h
  match args with
  | [] => rw [assemblePseudo?, if_neg hsilence, if_neg hdefaults]
  | [_] => rw [assemblePseudo?, if_neg hoff, if_neg hosc, if_neg hperiod]
  | [_, _] => rw [assemblePseudo?, if_neg hon]
  | _ :: _ :: _ :: _ => rfl

/-! ### What a line assembles to, by its mnemonic -/

section
variable {tail : List Char} (ht : Said.isComment tail) {texts : List (List Char)} (hp : ∀ t ∈ texts, Said.isPlain t)
include ht hp

/-- A command's line gives its row's word for the operands it reads. -/
theorem assembleLine_command (o : Opcode) :
    assembleLine (Said.lineText (Said.mnemonic o).toList texts ++ tail) =
      (operandValues? (some o) texts).bind fun args => (Said.assembled o args).map fun w => [w] := by
  have hencode : ∀ args, (assembleOp? o args).map (fun i => [encode i]) = (Said.assembled o args).map fun w => [w] := by
    intro args
    rw [← (assembleOp?_assembles o args).1, Option.map_map]
    rfl
  simp only [assembleLine, lineParts_lineText hp (isPlain_mnemonic o) ht, opcodeNamed?_mnemonic, hencode]

/-- The line of a name that is no operation's and not `.word` gives the words of a pseudo-instruction. -/
theorem assembleLine_pseudo {name : List Char} (hn : Said.isPlain name) (ho : opcodeNamed? name = none)
    (hw : name ≠ ".word".toList) : assembleLine (Said.lineText name texts ++ tail) =
      (texts.mapM operand?).bind fun args => (assemblePseudo? name args).map Pseudo.words := by
  have hvalues : operandValues? none texts = texts.mapM operand? := operandValues?_eq_mapM nofun
  simp only [assembleLine, lineParts_lineText hp hn ht, ho, hvalues, if_neg hw]

end

/-- What is made of an operand's field: it is there where the operand fits. -/
theorem field?_map {n : Nat} {lo hi v : Int} {α : Type} {g : BitVec n → α} {a : α}
    (h : lo ≤ v ∧ v ≤ hi → g (BitVec.ofInt n v) = a) :
    (field? n lo hi v).map g = if lo ≤ v ∧ v ≤ hi then some a else none := by
  by_cases hv : lo ≤ v ∧ v ≤ hi
  · rw [field?_of_fits hv, if_pos hv, Option.map_some, h hv]
  · rw [field?_of_misfit hv, if_neg hv, Option.map_none]

/-- A `.word` line gives the raw word, where the operand fits 32 bits. -/
theorem assembleLine_word {tail t : List Char} {v : Int} (ht : Said.isComment tail) (hv : Said.Spells t v) :
    assembleLine (Said.lineText ".word".toList [t] ++ tail) =
      if 0 ≤ v ∧ v < 2 ^ 32 then some [BitVec.ofInt 32 v] else none := by
  have hp : ∀ u ∈ [t], Said.isPlain u := List.forall_mem_singleton.2 (isPlain_of_spells hv)
  have hn : Said.isPlain ".word".toList := isPlain_otherMnemonics _ (by decide)
  have ho : opcodeNamed? ".word".toList = none := opcodeNamed?_otherMnemonics _ (by decide)
  have hvalues : operandValues? none [t] = some [v] := operandValues?_of_spells none (.cons hv .nil)
  simp only [assembleLine, lineParts_lineText hp hn ht, ho, hvalues, Option.bind_some, if_true]
  have hrange : (0 ≤ v ∧ v ≤ 4294967295) ↔ 0 ≤ v ∧ v < 2 ^ 32 := by omega
  rw [field?_map fun _ => rfl]
  exact if_congr hrange rfl rfl

/-- Settles O57: the line is cut into its texts, each text reads as the operand it spells, and the assembler answers R82's
column for the operands. -/
theorem assemblerReadsEveryLine : Obligations.AssemblerReadsEveryLine := by
  intro tail ht
  refine ⟨fun o texts args h => ?_, fun t k hk => ?_, fun t v hv => assembleLine_word ht hv,
    fun o texts i hi hp hnone hname => ?_, fun name texts hn hp hname hother => ?_⟩
  · rw [assembleLine_command ht (isPlain_of_forall₂_spells h), operandValues?_of_spells _ h, Option.bind_some]
  · have hline : ∀ u v, u ∈ waveNames → waveName? u = some v →
        assembleLine (Said.lineText "OSC_SET_WAVE".toList [t, u] ++ tail) =
          (Said.assembled .oscSetWave [k, v]).map fun w => [w] := by
      intro u v hu hv
      have hp : ∀ x ∈ [t, u], Said.isPlain x :=
        List.forall_mem_cons.2 ⟨isPlain_of_spells hk, List.forall_mem_singleton.2 (isPlain_waveNames u hu)⟩
      have hvalues : operandValues? (some .oscSetWave) [t, u] = some [k, v] := by
        simp [operandValues?, (operand?_iff t k).2 hk, hv]
      exact (assembleLine_command ht hp .oscSetWave).trans (by rw [hvalues, Option.bind_some])
    exact ⟨hline _ 0 (by decide) (by decide), hline _ 1 (by decide) (by decide), hline _ 2 (by decide) (by decide)⟩
  · rw [assembleLine_command ht hp]
    cases hvalues : operandValues? (some o) texts with
    | none => rfl
    | some args =>
      rcases spells_of_operandValues? hvalues i hi with ⟨v, hv⟩ | ⟨ho, hrest⟩
      · exact absurd hv (hnone v)
      · exact absurd ⟨Option.some.inj ho, hrest⟩ hname
  · rw [assembleLine_pseudo ht hp hn (opcodeNamed?_none hname) (hother _ (by decide))]
    simp [assemblePseudo?_none hother]

/-! ### The words of a pseudo-instruction's line (R83) -/

theorem encode_midiByte_ofInt {n : Int} (h : 0 ≤ n ∧ n ≤ 255) :
    encode (.midiByte (BitVec.ofInt 8 n)) = BitVec.ofInt 32 (0x30000000 + n) := by
  have hrow := (assembleOp?_assembles .midiByte [n]).1
  have hmod : n % 256 = n := by omega
  simpa [assembleOp?, field?_of_fits h, Said.assembled, Said.row, h, hmod] using hrow

theorem encode_mixFill_ofInt {n : Int} (h : 0 ≤ n ∧ n ≤ 65535) :
    encode (.mixFill (BitVec.ofInt 16 n)) = BitVec.ofInt 32 (0x21000000 + n) := by
  have hrow := (assembleOp?_assembles .mixFill [n]).1
  have hmod : n % 65536 = n := by omega
  simpa [assembleOp?, field?_of_fits h, Said.assembled, Said.row, h, hmod] using hrow

theorem encode_oscSetWave_ofInt {k : Int} (h : 0 ≤ k ∧ k ≤ 2) :
    encode (.oscSetWave (BitVec.ofInt 2 k) 0#2) = BitVec.ofInt 32 (0x10000000 + k * 65536) := by
  have hrow := (assembleOp?_assembles .oscSetWave [k, 0]).1
  have hnone : field? 2 0 2 0 = some 0#2 := by decide
  simpa [assembleOp?, field?_of_fits h, hnone, Said.assembled, Said.row, h] using hrow

/-- The line of a pseudo-instruction gives its words, for the operands that its texts spell. -/
theorem assembleLine_pseudo_of_spells {tail : List Char} (ht : Said.isComment tail) {texts : List (List Char)}
    {args : List Int} (h : List.Forall₂ Said.Spells texts args) {m : String} (hm : m ∈ Said.otherMnemonics)
    (hw : m ≠ ".word") :
    assembleLine (Said.lineText m.toList texts ++ tail) = (assemblePseudo? m.toList args).map Pseudo.words := by
  rw [assembleLine_pseudo ht (isPlain_of_forall₂_spells h) (isPlain_otherMnemonics m hm)
    (opcodeNamed?_otherMnemonics m hm) (fun h => hw (String.toList_inj.1 h)), (mapM_operand?_iff texts args).2 h,
    Option.bind_some]

/-- Settles O58: the pseudo-instruction's operands fit, and its expansion is encoded, or one does not, and the line is
refused. -/
theorem assemblerExpandsEveryPseudoLine : Obligations.AssemblerExpandsEveryPseudoLine := by
  intro tail ht
  refine ⟨fun t u n v hn hv => ?_, fun t n hn => ⟨?_, ?_, ?_⟩, ?_, ?_⟩
  · rw [assembleLine_pseudo_of_spells ht (.cons hn (.cons hv .nil)) (by decide) (by decide), assemblePseudo?, if_pos rfl]
    by_cases hfn : 0 ≤ n ∧ n ≤ 255
    · rw [field?_of_fits hfn, Option.bind_some, Option.map_map, ← encode_midiByte_ofInt hfn]
      simp only [hfn, true_and]
      exact field?_map fun hfv => by rw [← encode_midiByte_ofInt hfv]; rfl
    · rw [if_neg fun h => hfn h.1, field?_of_misfit hfn]
      rfl
  · rw [assembleLine_pseudo_of_spells ht (.cons hn .nil) (by decide) (by decide), assemblePseudo?, if_pos rfl,
      Option.map_map]
    exact field?_map fun hf => by rw [← encode_midiByte_ofInt hf]; rfl
  · rw [assembleLine_pseudo_of_spells ht (.cons hn .nil) (by decide) (by decide), assemblePseudo?, if_neg (by decide),
      if_pos rfl, Option.map_map]
    exact field?_map fun hf => by rw [← encode_oscSetWave_ofInt hf]; rfl
  · rw [assembleLine_pseudo_of_spells ht (.cons hn .nil) (by decide) (by decide), assemblePseudo?, if_neg (by decide),
      if_neg (by decide), if_pos rfl, Option.map_map]
    exact field?_map fun hf => by rw [← encode_mixFill_ofInt hf]; rfl
  · rw [assembleLine_pseudo_of_spells ht .nil (by decide) (by decide)]
    decide
  · rw [assembleLine_pseudo_of_spells ht .nil (by decide) (by decide)]
    decide

end Sys2Proof.Machine
end

section
/-!
SUPPORT and PROOFS. One period (spec/30_encoding.md R83): the increments (R130), the contributions (R133-R139) and the sum of
the mixer (R163, R164) as the spec writes them, the samples of a fill, and NOTE_LATCH before the fill (R266).
-/

namespace Sys2Proof.Machine

/-! ### The increment as R130 writes it -/

/-- R108's mantissas and exponents give the words of the ROM. -/
theorem romInc_eq_dec : ∀ i < 128, Said.romInc i = dec (rom i) := by decide +kernel

theorem saidFreqInc_eq (e : Int) : Said.freqInc e = freqInc e := by
  unfold Said.freqInc freqInc
  by_cases h : 0 ≤ e ∧ e ≤ 127
  · rw [if_pos h, if_pos h, romInc_eq_dec e.toNat (by omega)]
  · rw [if_neg h, if_neg h]
    rfl

/-- R9's division, sign and magnitude, is the division that truncates. -/
theorem saidTdiv_eq (a : Int) (b : Nat) : Said.tdiv a b = a.tdiv b := by
  unfold Said.tdiv
  rcases Int.le_total 0 a with h | h
  · obtain ⟨n, rfl⟩ := Int.eq_ofNat_of_zero_le h
    rcases Nat.eq_zero_or_pos n with rfl | hn
    · simp
    · rw [Int.sign_natCast_of_ne_zero (by omega), one_mul]
      rfl
  · obtain ⟨n, hn⟩ := Int.eq_ofNat_of_zero_le (Int.neg_nonneg_of_nonpos h)
    obtain rfl : a = -(n : Int) := by omega
    rcases Nat.eq_zero_or_pos n with rfl | hpos
    · simp
    · rw [Int.sign_neg, Int.sign_natCast_of_ne_zero (by omega), Int.natAbs_neg, Int.neg_tdiv, neg_one_mul]
      rfl

theorem slotInc_eq_incInt (o : Osc) (note : Nat) : Said.slotInc o note = incInt o note := by
  simp only [Said.slotInc, Said.incOf, incInt, interpolate, saidFreqInc_eq, saidTdiv_eq, gt_iff_lt]
  rfl

theorem slotInc_toNat {o : Osc} (h : o.inRange) (note : Nat) : (Said.slotInc o note).toNat = (inc o note).toNat := by
  rw [slotInc_eq_incInt, ← inc_toNat o note h, Int.toNat_natCast]

/-! ### The mixed sample as R163 writes it -/

theorem saidContrib_eq (p : Params) (o : Osc) (i n : Word) (c : Nat) :
    Said.contrib p o i.toNat n.toNat c = contrib p o i n c := by
  unfold Said.contrib contrib
  cases o.wave with
  | none => rfl
  | square =>
    simp only [squareOut, phase_toNat]
    rfl
  | sawtooth =>
    simp only [sawOut, phase_toNat, Nat.shiftRight_eq_div_pow]
    rfl

theorem saidActiveCount_eq (a : Arch) : Said.activeCount a = a.activeCount := by
  rw [activeCount_eq_sum, Said.activeCount, Finset.card_filter, Fin.sum_univ_three]
  simp [Osc.active]

/-- A slot's contribution is at most its share of P_MAX_AMPLITUDE, and 0 where its waveform is None (R164). -/
theorem contrib_le_share (p : Params) {o : Osc} (h : o.level.toNat ≤ 10) (i n : Word) (c : Nat) :
    contrib p o i n c ≤ (if o.active then 1 else 0) * (p.maxAmplitude.toNat / c) := by
  by_cases ha : o.active = true
  · rw [if_pos ha, one_mul]
    refine (contrib_le p o i n c).trans ?_
    rcases Nat.eq_zero_or_pos c with rfl | hc
    · simp [peak]
    · rw [Nat.le_div_iff_mul_le hc, mul_comm]
      exact peak_le p o.level c h
  · have hnone : o.wave = .none := by simpa [Osc.active] using ha
    simp [contrib, hnone]

/-- The slots together do not exceed P_MAX_AMPLITUDE (R164). -/
theorem sampleSum_le (p : Params) {a : Arch} (h : a.slotsInRange) (incs : Vector Word 3) (n : Word) :
    sampleSum p a.osc incs a.activeCount n ≤ p.maxAmplitude.toNat := by
  obtain ⟨h0, -⟩ := h 0
  obtain ⟨h1, -⟩ := h 1
  obtain ⟨h2, -⟩ := h 2
  have hshare := activeCount_eq_sum a
  calc sampleSum p a.osc incs a.activeCount n
      ≤ (if a.osc[0].active then 1 else 0) * (p.maxAmplitude.toNat / a.activeCount)
        + (if a.osc[1].active then 1 else 0) * (p.maxAmplitude.toNat / a.activeCount)
        + (if a.osc[2].active then 1 else 0) * (p.maxAmplitude.toNat / a.activeCount) :=
        Nat.add_le_add (Nat.add_le_add (contrib_le_share p h0 _ n _) (contrib_le_share p h1 _ n _))
          (contrib_le_share p h2 _ n _)
    _ = a.activeCount * (p.maxAmplitude.toNat / a.activeCount) := by rw [← Nat.add_mul, ← Nat.add_mul, ← hshare]
    _ ≤ p.maxAmplitude.toNat := Nat.mul_div_le _ _

/-- A slot's contribution to the fill is R163's, for the increment the record fixes. -/
theorem contrib_increments (p : Params) {a : Arch} (h : a.slotsInRange) (n : Word) (k : Fin 3) :
    contrib p a.osc[k] a.increments[k] n a.activeCount =
      Said.contrib p a.osc[k] (Said.slotInc a.osc[k] a.curNote.toNat).toNat n.toNat (Said.activeCount a) := by
  have hinc : a.increments[k] = inc a.osc[k] a.curNote.toNat := by simp [Arch.increments]
  rw [hinc, slotInc_toNat (h k), saidContrib_eq, saidActiveCount_eq]

/-- The sum with the increments of the record is R163's sample. -/
theorem sampleSum_eq_sample (p : Params) {a : Arch} (h : a.slotsInRange) (n : Word) :
    sampleSum p a.osc a.increments a.activeCount n = Said.sample p a n.toNat :=
  congrArg₂ (· + ·) (congrArg₂ (· + ·) (contrib_increments p h n 0) (contrib_increments p h n 1))
    (contrib_increments p h n 2)

/-- Sample `i` of a fill is the mixed sample at the index S + i (R162). -/
theorem fillSamples_getElem_toNat (p : Params) {a : Arch} (h : a.slotsInRange) (n : Nat) {i : Nat}
    (hi : i < (fillSamples p a n).length) :
    (fillSamples p a n)[i].toNat = Said.sample p a ((a.scount.toNat + i) % 2 ^ 32) := by
  have hindex : (a.scount + BitVec.ofNat 32 i).toNat = (a.scount.toNat + i) % 2 ^ 32 := by simp
  have hfits := (sampleSum_le p h a.increments (a.scount + BitVec.ofNat 32 i)).trans_lt p.maxAmplitude.isLt
  rw [← hindex, ← sampleSum_eq_sample p h, ← Nat.mod_eq_of_lt hfits, ← BitVec.toNat_ofNat]
  simp [fillSamples, sampleWord]

/-! ### One period (R83, R266) -/

/-- NOTE_LATCH sets the sounding note, which needs no clamp (R169). -/
theorem exec_noteLatch (s : State) : exec .noteLatch s = .next (s.setCurNote (BitVec.ofNat 7 s.arch.sounding)) := by
  have hclamp : clampNote s.arch.sounding = BitVec.ofNat 7 s.arch.sounding := by
    rw [clampNote, Nat.min_eq_left (Nat.le_of_lt_succ (sounding_lt s.arch))]
  rw [← hclamp]
  rfl

theorem latched_toNat (a : Arch) : (BitVec.ofNat 7 a.sounding).toNat = a.sounding := by
  rw [BitVec.toNat_ofNat, Nat.mod_eq_of_lt (sounding_lt a)]

/-- A run over a period ends where the fill from the latched note ends. -/
theorem runsTo_period {n : Half} {s t : State}
    (h : exec (.mixFill n) (s.setCurNote (BitVec.ofNat 7 s.arch.sounding)) = .next t) :
    s.RunsTo (Pseudo.period n).words { t with cmdPort := [] } := by
  show s.RunsTo [encode .noteLatch, encode (.mixFill n)] _
  rw [runsTo_encode_cons rfl (exec_noteLatch s), runsTo_encode_cons rfl h, runsTo_nil]

/-- Settles O46: the latched note is the sounding one, and the fill is silent or not by it. -/
theorem periodPlaysTheSoundingNote : Obligations.PeriodPlaysTheSoundingNote := by
  intro n s a
  refine ⟨latched_toNat s.arch, ?_⟩
  by_cases h : s.arch.sounding = 0
  · have hnote : (s.setCurNote (BitVec.ofNat 7 s.arch.sounding)).arch.curNote = 0#7 := by
      rw [State.setCurNote_curNote, h]
    refine ⟨List.replicate n.toNat 0#16, ?_, List.length_replicate, fun _ => rfl, fun hne => absurd h hne⟩
    rw [if_pos h]
    exact runsTo_period (exec_mixFill_silent hnote n)
  · have hnote : (s.setCurNote (BitVec.ofNat 7 s.arch.sounding)).arch.curNote ≠ 0#7 := fun hzero =>
      h ((latched_toNat s.arch).symm.trans (congrArg BitVec.toNat hzero))
    refine ⟨fillSamples s.params a n.toNat, ?_, fillSamples_length .., fun hzero => absurd hzero h, fun _ hslots i hi =>
      fillSamples_getElem_toNat s.params (a := a) hslots n.toNat hi⟩
    rw [if_neg h, ← BitVec.ofNat_toNat]
    exact runsTo_period (exec_mixFill_sounding hnote n)

end Sys2Proof.Machine
end

section
/-!
SUPPORT and PROOFS. The family of spec/40_frequency_rom.md. A tempered increment (R102) is a multiple of a twelfth root, so
its twelfth power is rational: a bound on it is a comparison of whole numbers, and the 128 words are checked by those. The
frequency commands go through the decoder's lemmas.
-/

namespace Sys2Proof.Machine

/-! ### The fields of a ROM word (R101, R108) -/

/-- E of a ROM word, its bits 15:12. -/
def romExponent (i : ℕ) : ℕ := ((rom i).extractLsb' 12 4).toNat

/-- M of a ROM word, its bits 11:0. -/
def romMantissa (i : ℕ) : ℕ := ((rom i).extractLsb' 0 12).toNat

/-- R101's formula with the shift as a multiplication. -/
theorem dec_rom (i : ℕ) : dec (rom i) = (4096 + romMantissa i) * 2 ^ (romExponent i + 8) := Nat.shiftLeft_eq _ _

/-- R108's fields, read off the 128 words of R103. -/
theorem rom_fields : ∀ i < 128, romMantissa i = Said.mantissas.getD (i % 12) 0 ∧ romExponent i = (i + 7) / 12 := by
  decide +kernel

/-- No mantissa is at an end of its range, so no word comes from a carry into the exponent (R102). -/
theorem romMantissa_inside : ∀ i < 128, 0 < romMantissa i ∧ romMantissa i < 4095 := by decide +kernel

/-! ### The tempered increment (R102) -/

/-- `x_i` of R102, exact. -/
noncomputable def temperedInc (i : ℕ) : ℝ :=
  (Config.refHz : ℝ) * (2 : ℝ) ^ (((i : ℝ) - (Config.refNote : ℝ)) / 12) * 2 ^ 32 / (Config.sampleRate : ℝ)

theorem sampleRate_pos : (0 : ℝ) < Config.sampleRate := by norm_num [Config.sampleRate]

/-- The twelfth power of an increment is rational. -/
theorem temperedInc_pow_twelve (i : ℕ) :
    ((Config.sampleRate : ℝ) * temperedInc i) ^ 12 * 2 ^ Config.refNote = ((Config.refHz : ℝ) * 2 ^ 32) ^ 12 * 2 ^ i := by
  have hroot : ((2 : ℝ) ^ (((i : ℝ) - (Config.refNote : ℝ)) / 12)) ^ 12 * 2 ^ Config.refNote = 2 ^ i := by
    rw [← Real.rpow_mul_natCast zero_le_two, Nat.cast_ofNat, div_mul_cancel₀ _ (by norm_num), Real.rpow_sub two_pos,
      Real.rpow_natCast, Real.rpow_natCast, div_mul_cancel₀ _ (by positivity)]
  rw [temperedInc, mul_div_cancel₀ _ sampleRate_pos.ne', ← hroot]
  ring

theorem temperedInc_pos (i : ℕ) : 0 < temperedInc i := by
  have hhz : (0 : ℝ) < Config.refHz := by norm_num [Config.refHz]
  have hrate := sampleRate_pos
  unfold temperedInc
  positivity

/-- `a ≤ k * x_i` in whole numbers: the twelfth powers, with the quotient of R102 multiplied out. -/
abbrev LeMulIncrement (a k i : ℕ) : Prop :=
  (Config.sampleRate * a) ^ 12 * 2 ^ Config.refNote ≤ (k * (Config.refHz * 2 ^ 32)) ^ 12 * 2 ^ i

theorem le_mul_temperedInc_iff (a k i : ℕ) : (a : ℝ) ≤ k * temperedInc i ↔ LeMulIncrement a k i := by
  have hrate := sampleRate_pos
  have hinc := (temperedInc_pos i).le
  calc (a : ℝ) ≤ k * temperedInc i
      ↔ Config.sampleRate * (a : ℝ) ≤ Config.sampleRate * (k * temperedInc i) := (mul_le_mul_iff_right₀ hrate).symm
    _ ↔ (Config.sampleRate * (a : ℝ)) ^ 12 ≤ (Config.sampleRate * (k * temperedInc i)) ^ 12 :=
        (pow_le_pow_iff_left₀ (by positivity) (by positivity) (by norm_num)).symm
    _ ↔ (Config.sampleRate * (a : ℝ)) ^ 12 * 2 ^ Config.refNote ≤
          (Config.sampleRate * (k * temperedInc i)) ^ 12 * 2 ^ Config.refNote :=
        (mul_le_mul_iff_left₀ (by positivity)).symm
    _ ↔ (Config.sampleRate * (a : ℝ)) ^ 12 * 2 ^ Config.refNote ≤ (k * (Config.refHz * 2 ^ 32 : ℝ)) ^ 12 * 2 ^ i := by
        rw [mul_left_comm _ (k : ℝ), mul_pow (k : ℝ), mul_assoc, temperedInc_pow_twelve, ← mul_assoc, ← mul_pow]
    _ ↔ LeMulIncrement a k i := by exact_mod_cast Iff.rfl

theorem mul_temperedInc_lt_iff (a k i : ℕ) : k * temperedInc i < a ↔ ¬LeMulIncrement a k i :=
  not_le.symm.trans (not_congr (le_mul_temperedInc_iff a k i))

/-! ### Rounding to a ROM word (R102) -/

/-- The whole numbers half a unit of the mantissa below and above a decoded word enclose the increment. -/
theorem rom_encloses_powers : ∀ i < 128,
    LeMulIncrement ((2 * (4096 + romMantissa i) - 1) * 2 ^ (romExponent i + 8)) 2 i ∧
    ¬LeMulIncrement ((2 * (4096 + romMantissa i) + 1) * 2 ^ (romExponent i + 8)) 2 i := by
  decide +kernel

/-- In units of the mantissa, an increment is at most half a unit from its word's mantissa. -/
theorem rom_encloses {i : ℕ} (hi : i < 128) :
    4096 + (romMantissa i : ℝ) - 1 / 2 ≤ temperedInc i / 2 ^ (romExponent i + 8) ∧
    temperedInc i / 2 ^ (romExponent i + 8) < 4096 + (romMantissa i : ℝ) + 1 / 2 := by
  obtain ⟨hlow, hhigh⟩ := rom_encloses_powers i hi
  rw [← le_mul_temperedInc_iff] at hlow
  rw [← mul_temperedInc_lt_iff] at hhigh
  have hunit : (0 : ℝ) < 2 ^ (romExponent i + 8) := by positivity
  rw [le_div_iff₀ hunit, div_lt_iff₀ hunit]
  push_cast [show 1 ≤ 2 * (4096 + romMantissa i) by omega] at hlow hhigh
  constructor <;> linarith

/-- The increment's power of two is its word's exponent. -/
theorem floor_logb_temperedInc {i : ℕ} (hi : i < 128) : ⌊Real.logb 2 (temperedInc i)⌋ = romExponent i + 20 := by
  obtain ⟨hlow, hhigh⟩ := rom_encloses hi
  obtain ⟨hpos, hlt⟩ := romMantissa_inside i hi
  have hmant : (1 : ℝ) ≤ romMantissa i := by exact_mod_cast hpos
  have hmant' : (romMantissa i : ℝ) + 1 ≤ 4095 := by exact_mod_cast hlt
  have hunit : (0 : ℝ) < 2 ^ (romExponent i + 8) := by positivity
  have hcast : ((romExponent i + 20 : ℤ) : ℝ) = ((romExponent i + 20 : ℕ) : ℝ) := by push_cast; rfl
  rw [Int.floor_eq_iff, Real.le_logb_iff_rpow_le one_lt_two (temperedInc_pos i),
    Real.logb_lt_iff_lt_rpow one_lt_two (temperedInc_pos i), hcast, ← Nat.cast_add_one, Real.rpow_natCast,
    Real.rpow_natCast]
  constructor
  · calc (2 : ℝ) ^ (romExponent i + 20) = 4096 * 2 ^ (romExponent i + 8) := by ring
      _ ≤ temperedInc i := (le_div_iff₀ hunit).1 (by linarith)
  · calc temperedInc i < 8192 * 2 ^ (romExponent i + 8) := (div_lt_iff₀ hunit).1 (by linarith)
      _ = 2 ^ (romExponent i + 20 + 1) := by ring

/-- The increment in units of the mantissa, rounded half up, is its word's mantissa with the leading bit. -/
theorem round_temperedInc {i : ℕ} (hi : i < 128) :
    ⌊temperedInc i / (2 : ℝ) ^ ((romExponent i : ℤ) + 8) + 1 / 2⌋ = 4096 + romMantissa i := by
  obtain ⟨hlow, hhigh⟩ := rom_encloses hi
  have hunit : (2 : ℝ) ^ ((romExponent i : ℤ) + 8) = 2 ^ (romExponent i + 8) := by exact_mod_cast rfl
  rw [hunit, Int.floor_eq_iff]
  push_cast
  constructor <;> linarith

/-- Settles O25: the increment lies within half a unit of each word's mantissa, which fixes E and m; m is never 8192. -/
theorem romWordsAreTheRoundedTemperedIncrements : Obligations.RomWordsAreTheRoundedTemperedIncrements := by
  intro i hi x e m
  have he : e = romExponent i := by
    show ⌊Real.logb 2 (temperedInc i)⌋ - 20 = _
    rw [floor_logb_temperedInc hi, add_sub_cancel_right]
  have hm : m = 4096 + romMantissa i := by
    rw [← round_temperedInc hi, ← he]
    rfl
  obtain ⟨-, hlt⟩ := romMantissa_inside i hi
  have hcarry : m ≠ 8192 := by omega
  refine ⟨by omega, by omega, ?_, ?_⟩
  · rw [if_neg hcarry, he]
    rfl
  · rw [if_neg hcarry, hm, add_sub_cancel_left]
    rfl

/-! ### Accuracy (R105) -/

/-- R105's bound in whole numbers, scaled by 10^7: 8.07e-5 is 807 / 10^7. -/
theorem rom_accuracy_powers : ∀ i < 128, LeMulIncrement (10 ^ 7 * dec (rom i)) (10 ^ 7 + 807) i ∧
    ¬LeMulIncrement (10 ^ 7 * dec (rom i)) (10 ^ 7 - 807) i := by
  decide +kernel

/-- Settles O26: twice a comparison of twelfth powers, for each word. -/
theorem romIncrementsAreAccurate : Obligations.RomIncrementsAreAccurate := by
  intro i hi x
  obtain ⟨hhigh, hlow⟩ := rom_accuracy_powers i hi
  rw [← le_mul_temperedInc_iff] at hhigh
  rw [← mul_temperedInc_lt_iff] at hlow
  push_cast at hhigh hlow
  show |((dec (rom i) : ℕ) : ℝ) - temperedInc i| ≤ 8.07e-5 * temperedInc i
  rw [abs_le]
  constructor <;> linarith

/-! ### The table and its lookup (R104, R108) -/

/-- Settles O24: the next octave has the same mantissa and the next exponent, so its increment is the double. -/
theorem romHasTheTemperedStructure : Obligations.RomHasTheTemperedStructure := by
  refine ⟨rfl, rom_fields, fun i hi => ?_⟩
  obtain ⟨hmant, hexp⟩ := rom_fields i (by omega)
  obtain ⟨hmant', hexp'⟩ := rom_fields (i + 12) (by omega)
  have hsame : romMantissa (i + 12) = romMantissa i := by rw [hmant', hmant, Nat.add_mod_right]
  have hnext : romExponent (i + 12) = romExponent i + 1 := by omega
  rw [dec_rom, dec_rom, hsame, hnext]
  ring

/-- Settles O27: the two cases of the lookup; the decoded words are in range. -/
theorem frequencyLookupIsSilentOutsideTheTable : Obligations.FrequencyLookupIsSilentOutsideTheTable := by
  refine ⟨fun e => (saidFreqInc_eq e).symm, fun e hout => if_neg (by omega), fun e h0 h127 => ?_⟩
  have hval : freqInc e = dec (rom e.toNat) := if_pos ⟨h0, h127⟩
  rw [hval]
  exact ⟨rfl, dec_rom_bounds e.toNat (by omega)⟩

end Sys2Proof.Machine

namespace Sys2Proof

/-! ### Words by their OP -/

/-- A legal word is the word of the command its fields spell. -/
theorem eq_encode_of_legal {w : Word} {o : Opcode} (ho : opField w = o.code) (h : legal w) :
    w = encode (o.toInstr (kField w) (immField w)) := by
  obtain ⟨i, hd⟩ := decode_of_legal h
  obtain ⟨o', ho', -, -, -, rfl, -⟩ := decode_eq_instr hd
  rw [ho, Opcode.ofCode?_code] at ho'
  cases ho'
  exact (encode_of_decode hd).symm

/-- A word is its other fields' bits or its IMM's. -/
theorem packWord_eq_or (op : BitVec 8) (k : SlotSel) (imm : Half) :
    packWord op k imm = packWord op k 0#16 ||| imm.setWidth 32 := by
  apply BitVec.eq_of_getLsbD_eq
  intro i hi
  simp only [packWord, BitVec.getLsbD_or, BitVec.getLsbD_append, BitVec.getLsbD_setWidth]
  by_cases himm : i < 16
  · simp [himm, hi]
  · simp [himm, BitVec.getLsbD_of_ge imm i (by omega)]

theorem encode_freqRead (v : Byte) : encode (.freqRead v) = 0x02000000#32 ||| v.setWidth 32 :=
  (packWord_eq_or 0x02#8 0#2 (v.setWidth 16)).trans
    (congrArg _ (BitVec.setWidth_setWidth (by decide)))

end Sys2Proof

namespace Sys2Proof.Machine

/-! ### The commands (R106, R107, R220) -/

/-- Settles O28: the answer is the lookup's; a legal word with this OP is FREQ_READ's, which has no bit of 23:8 set. -/
theorem freqReadAnswersTheRomWord : Obligations.FreqReadAnswersTheRomWord := by
  refine ⟨encode_freqRead, fun i s hi => ?_, fun i s hi => ?_, fun w hop hbits => raises_of_not_legal fun hl => ?_⟩
  · have hword : freqWord i = rom i.toNat := if_pos hi
    rw [← hword]
    rfl
  · have hword : freqWord i = 0#16 := if_neg (by omega)
    show answer s (zext32 (freqWord i)) = _
    rw [hword]
    rfl
  · rw [eq_encode_of_legal (o := .freqRead) hop hl] at hbits
    exact hbits (pack_hi24 _ _)

/-- Settles O29: each has one legal word, as none of its bits but OP is used. -/
theorem nopAndFreqInitChangeNothing : Obligations.NopAndFreqInitChangeNothing := by
  have hnop : encode .nop = 0x00000000#32 := by decide
  have hinit : encode .freqInit = 0x01000000#32 := by decide
  refine ⟨hnop, hinit, fun _ => rfl, fun _ => rfl, fun w hop hne => ?_, fun w hop hne => ?_⟩
  · exact raises_of_not_legal fun hl => hne ((eq_encode_of_legal (o := .nop) hop hl).trans hnop)
  · exact raises_of_not_legal fun hl => hne ((eq_encode_of_legal (o := .freqInit) hop hl).trans hinit)

end Sys2Proof.Machine
end

section
/-!
SUPPORT and PROOFS. The family of spec/41_oscillator.md. The words of the slot commands and what makes one illegal; the four
settings and the five reads; the increment as an interpolation (R130, R131); the contribution waveform by waveform
(R134-R139); and the accumulator form of the phase (R133), whose registers hold the phases of the next sample.
-/

namespace Sys2Proof

/-! ### The words of the slot commands (R70, R82) -/

/-- The union of two words is the word of the unions of their fields. -/
theorem packWord_or (op op' : BitVec 8) (k k' : SlotSel) (imm imm' : Half) :
    packWord op k imm ||| packWord op' k' imm' = packWord (op ||| op') (k ||| k') (imm ||| imm') := by
  show (op ++ 0#6 ++ k ++ imm) ||| (op' ++ 0#6 ++ k' ++ imm') = (op ||| op') ++ 0#6 ++ (k ||| k') ++ (imm ||| imm')
  rw [BitVec.or_append, BitVec.or_append, BitVec.or_append, BitVec.or_self]

theorem selBits_eq_packWord (k : Fin 3) : Said.selBits k = packWord 0#8 (Said.sel k) 0#16 := by
  revert k; decide

/-- The word of a slot command without an operand (R82). -/
theorem packWord_slot (op : BitVec 8) (k : Fin 3) :
    packWord op (Said.sel k) 0#16 = packWord op 0#2 0#16 ||| Said.selBits k := by
  rw [selBits_eq_packWord, packWord_or, BitVec.or_zero, BitVec.zero_or, BitVec.or_zero]

/-- The word of a slot command with an operand (R82). -/
theorem packWord_slot_operand (op : BitVec 8) (k : Fin 3) {n : Nat} (hn : n ≤ 16) (v : BitVec n) :
    packWord op (Said.sel k) (v.setWidth 16) = packWord op 0#2 0#16 ||| Said.selBits k ||| v.setWidth 32 := by
  rw [packWord_eq_or, packWord_slot, BitVec.setWidth_setWidth (by omega)]

/-- Bits 15:2 of a word with a 2-bit operand are 0. -/
theorem pack_hi14 (op : BitVec 8) (k : SlotSel) (c : BitVec 2) :
    (packWord op k (c.setWidth 16)).extractLsb' 2 14 = 0#14 := by
  rw [packWord, BitVec.extractLsb'_append_eq_of_add_le (by decide)]
  revert c; decide

/-- Bits 1:0 of a word with a 2-bit operand are the operand. -/
theorem pack_lo2 (op : BitVec 8) (k : SlotSel) (c : BitVec 2) :
    (packWord op k (c.setWidth 16)).extractLsb' 0 2 = c := by
  rw [← imm2_immField, immField_packWord, imm2_setWidth]

/-- R123's illegal bytes are those outside -100..100 as two's complement. -/
theorem centLegal_iff (v : Byte) : centLegal v = true ↔ ¬(0x65 ≤ v.toNat ∧ v.toNat ≤ 0x9B) := by
  have := v.isLt
  rw [centLegal, decide_eq_true_iff, BitVec.toInt_eq_toNat_cond]
  split <;> omega

end Sys2Proof

namespace Sys2Proof.Machine

/-! ### Illegal words of the slot commands (R77) -/

/-- A word with a slot command's OP raises where RES is not 0, where K is 3, and where it has a fault `P` that no word of a
well-formed command of that operation has. -/
theorem raises_of_slot_op {o : Opcode} {P : Word → Prop} (ht : o.takesSlot = true)
    (hP : ∀ k imm, (o.toInstr k imm).wellFormed = true → ¬P (encode (o.toInstr k imm))) {w : Word}
    (ho : opField w = o.code) (hbad : resField w ≠ 0#6 ∨ kField w = 3#2 ∨ P w) : Said.Raises w := by
  refine raises_of_not_legal fun hl => ?_
  obtain ⟨o', ho', hres, -, -, hwf⟩ := (legal_iff w).1 hl
  rw [ho, Opcode.ofCode?_code] at ho'
  cases ho'
  rcases hbad with h | h | h
  · exact h hres
  · have hk := ((Opcode.toInstr_wellFormed_iff o _ _).1 hwf).1 ht
    rw [h] at hk
    exact absurd hk (by decide)
  · rw [eq_encode_of_legal ho hl] at h
    exact hP _ _ hwf h

/-! ### The settings (R121-R124) -/

/-- Settles O30: the three codes name the three waveforms; a legal word's code is not 3. -/
theorem oscSetWaveStoresTheWaveform : Obligations.OscSetWaveStoresTheWaveform := by
  refine ⟨fun k c => packWord_slot_operand 0x10#8 k (by decide) c,
    fun k s => ⟨exec_oscSetWave k .none s, exec_oscSetWave k .square s, exec_oscSetWave k .sawtooth s⟩,
    fun k c s h => exec_of_not_wellFormed ?_ s,
    fun w hop hbad => raises_of_slot_op (o := .oscSetWave)
      (P := fun w => w.extractLsb' 2 14 ≠ 0#14 ∨ w.extractLsb' 0 2 = 3#2) rfl (fun k imm hwf => ?_) hop hbad⟩
  · rcases h with rfl | rfl
    · rfl
    · exact Bool.and_false _
  · obtain ⟨-, hcode⟩ := Bool.and_eq_true_iff.1 hwf
    rintro (h | h)
    · exact h (pack_hi14 _ _ _)
    · exact of_decide_eq_true hcode ((pack_lo2 _ _ _).symm.trans h)

/-- Settles O31: the level of 0..10 keeps its value in 4 bits; a legal word's level is at most 10. -/
theorem oscSetLevelStoresTheLevel : Obligations.OscSetLevelStoresTheLevel := by
  refine ⟨fun k v => packWord_slot_operand 0x11#8 k (by decide) v, fun k n s hn => ?_,
    fun k v s h => exec_of_not_wellFormed ?_ s,
    fun w hop hbad => raises_of_slot_op (o := .oscSetLevel)
      (P := fun w => w.extractLsb' 8 8 ≠ 0#8 ∨ 11 ≤ (w.extractLsb' 0 8).toNat) rfl (fun k imm hwf => ?_) hop hbad⟩
  · have hlevel : (BitVec.ofNat 8 n).toNat ≤ 10 := by rw [BitVec.toNat_ofNat]; omega
    rw [← BitVec.setWidth_ofNat_of_le (show 4 ≤ 8 by decide)]
    exact exec_oscSetLevel k hlevel s
  · rcases h with rfl | h
    · rfl
    · have hlevel : levelLegal v = false := decide_eq_false (Nat.not_le_of_lt h)
      rw [Instr.wellFormed, hlevel, Bool.and_false]
  · obtain ⟨-, hlevel⟩ := Bool.and_eq_true_iff.1 hwf
    rintro (h | h)
    · exact h (pack_hi16 _ _ _)
    · have hle : (imm8 imm).toNat ≤ 10 := of_decide_eq_true hlevel
      rw [← pack_lo8 0x11#8 k (imm8 imm)] at hle
      exact absurd hle (Nat.not_le_of_lt h)

/-- Settles O32: -100..100 is its own byte's value; the bytes between are the illegal ones. -/
theorem oscSetCentStoresTheCent : Obligations.OscSetCentStoresTheCent := by
  refine ⟨fun k v => packWord_slot_operand 0x12#8 k (by decide) v, fun k c s hlow hhigh => ?_,
    fun k v s h => exec_of_not_wellFormed ?_ s,
    fun w hop hbad => raises_of_slot_op (o := .oscSetCent)
      (P := fun w => w.extractLsb' 8 8 ≠ 0#8 ∨ 0x65 ≤ (w.extractLsb' 0 8).toNat ∧ (w.extractLsb' 0 8).toNat ≤ 0x9B)
      rfl (fun k imm hwf => ?_) hop hbad⟩
  · exact exec_oscSetCent k (of_decide_eq_true (centLegal_ofInt ⟨hlow, hhigh⟩)) s
  · rcases h with rfl | h
    · rfl
    · have hcent : centLegal v = false := Bool.eq_false_iff.2 fun hv => (centLegal_iff v).1 hv h
      rw [Instr.wellFormed, hcent, Bool.and_false]
  · obtain ⟨-, hcent⟩ := Bool.and_eq_true_iff.1 hwf
    rintro (h | h)
    · exact h (pack_hi16 _ _ _)
    · rw [← pack_lo8 0x12#8 k (imm8 imm)] at hcent
      exact (centLegal_iff _).1 hcent h

/-- Settles O33: no value of the byte is refused. -/
theorem oscSetSemiStoresTheSemitone : Obligations.OscSetSemiStoresTheSemitone :=
  ⟨fun k v => packWord_slot_operand 0x13#8 k (by decide) v, fun k n s _ _ => exec_oscSetSemi k (BitVec.ofInt 8 n) s,
    fun v s => exec_of_not_wellFormed (i := .oscSetSemi 3#2 v) rfl s,
    fun _ hop hbad => raises_of_slot_op (o := .oscSetSemi) (P := fun w => w.extractLsb' 8 8 ≠ 0#8) rfl
      (fun _ _ _ h => h (pack_hi16 _ _ _)) hop hbad⟩

/-! ### The reads (R125-R129) -/

/-- A slot command of which no IMM bit is used raises where IMM is not 0. -/
theorem raises_of_slot_op_unused {o : Opcode} (ht : o.takesSlot = true) (hmask : o.usedMask = 0#16) {w : Word}
    (ho : opField w = o.code) (hbad : resField w ≠ 0#6 ∨ kField w = 3#2 ∨ immField w ≠ 0#16) : Said.Raises w := by
  refine raises_of_slot_op (P := fun w => immField w ≠ 0#16) ht (fun k imm _ hne => hne ?_) ho hbad
  have hunused := Instr.imm_unused (o.toInstr k imm)
  rw [Opcode.toInstr_opcode, hmask] at hunused
  rw [encode, immField_packWord, imm_eq_zero hunused]

/-- The four accessors take a slot and no operand (R76). -/
theorem accessor_fields : ∀ o ∈ [Opcode.oscGetWave, .oscGetLevel, .oscGetCent, .oscGetSemi],
    o.takesSlot = true ∧ o.usedMask = 0#16 := by
  decide

/-- Settles O34: each read answers its field's extension. -/
theorem oscGetAnswersTheField : Obligations.OscGetAnswersTheField := by
  refine ⟨fun k => ⟨packWord_slot 0x18#8 k, packWord_slot 0x19#8 k, packWord_slot 0x1A#8 k,
      packWord_slot 0x1B#8 k⟩,
    fun k s => ⟨?_, ?_, exec_oscGetCent k s, exec_oscGetSemi k s⟩,
    fun s => ⟨exec_slotThree _ s rfl rfl, exec_slotThree _ s rfl rfl, exec_slotThree _ s rfl rfl,
      exec_slotThree _ s rfl rfl⟩,
    fun w hop hbad => ?_⟩
  · refine (exec_oscGetWave k s).trans ?_
    cases s.arch.osc[k].wave <;> rfl
  · rw [BitVec.ofNat_toNat]
    exact exec_oscGetLevel k s
  · obtain ⟨o, ho, hcode⟩ : ∃ o ∈ [Opcode.oscGetWave, .oscGetLevel, .oscGetCent, .oscGetSemi], opField w = o.code := by
      simpa [Opcode.code] using hop
    obtain ⟨hslot, hmask⟩ := accessor_fields o ho
    exact raises_of_slot_op_unused hslot hmask hcode hbad

/-- Note 0 is silent, whatever the slot holds (R132). -/
theorem inc_note_zero (o : Osc) : inc o 0 = 0#32 := rfl

/-- Settles O35: the answer is the model's increment, which is R130's formula narrowed. -/
theorem oscGetIncAnswersTheIncrement : Obligations.OscGetIncAnswersTheIncrement := by
  refine ⟨fun k n => packWord_slot_operand 0x1C#8 k (by decide) n, fun k n s => ?_, fun k s => ?_,
    fun n s => exec_slotThree _ s rfl rfl,
    fun w hop hbad => raises_of_slot_op (o := .oscGetInc) (P := fun w => w.extractLsb' 8 8 ≠ 0#8) rfl
      (fun _ _ _ h => h (pack_hi16 _ _ _)) hop hbad⟩
  · rw [slotInc_eq_incInt]
    exact exec_oscGetInc k n s
  · rw [← inc_note_zero s.arch.osc[k]]
    exact exec_oscGetInc k 0#8 s

/-! ### The increment as an interpolation (R130, R131) -/

/-- At 100 hundredths the interpolation has reached the neighbour. -/
theorem interpolate_full (base nb : Int) {cent : Int} (h : cent.natAbs = 100) : interpolate base nb cent = nb := by
  rw [interpolate, h, Nat.cast_ofNat, Int.mul_tdiv_cancel _ (by decide)]
  omega

/-- The index R130 interpolates toward: the next one on the side of CENT's sign, and the base's own for a CENT of 0. -/
def neighbour (cent e : Int) : Int := if cent > 0 then e + 1 else if cent < 0 then e - 1 else e

/-- For a note that is not 0, `Inc` is an interpolation; with a CENT of 0 it interpolates nowhere. -/
theorem incInt_eq_interpolate (o : Osc) {note : Nat} (h : note ≠ 0) :
    incInt o note = interpolate (freqInc (note + o.semi.toInt))
      (freqInc (neighbour o.cent.toInt (note + o.semi.toInt))) o.cent.toInt := by
  simp only [incInt, if_neg h, neighbour]
  rcases lt_trichotomy o.cent.toInt 0 with hc | hc | hc
  · rw [if_neg hc.ne, if_neg hc.not_gt, if_neg hc.not_gt, if_pos hc]
  · simp [hc, interpolate]
  · rw [if_neg hc.ne', if_pos hc, if_pos hc]

/-- Settles O36: the word is the interpolation, which stays between its ends. -/
theorem incrementLiesBetweenTheTableEntries : Obligations.IncrementLiesBetweenTheTableEntries := by
  intro o note hrange hnote _ e base nb
  have ⟨_, hlow, hhigh⟩ := hrange
  have hinc : ((inc o note).toNat : Int) = interpolate base nb o.cent.toInt := by
    rw [inc_toNat o note hrange, incInt_eq_interpolate o (by omega), ← saidFreqInc_eq, ← saidFreqInc_eq]
    rfl
  obtain ⟨hmin, hmax⟩ := interpolate_between base nb _ hlow hhigh
  refine ⟨hinc ▸ hmin, hinc ▸ hmax, ?_, fun hcent => ?_⟩
  · rw [slotInc_eq_incInt, inc_toNat o note hrange]
  · rw [hinc, interpolate_full base nb (by omega)]

/-! ### The contribution by the waveform (R134-R139) -/

section
variable (p : Params) {o : Osc} (i n : Word) (c : Nat)

theorem contrib_none (h : o.wave = .none) : contrib p o i n c = 0 := by
  rw [contrib, h]

theorem contrib_square (h : o.wave = .square) :
    contrib p o i n c = if (phase i n).toNat > 2 ^ 31 then peak p o.level c else 0 := by
  rw [contrib, h]
  rfl

theorem contrib_sawtooth (h : o.wave = .sawtooth) :
    contrib p o i n c = peak p o.level c * (phase i n).toNat / 2 ^ 32 := by
  rw [contrib, h, ← Nat.shiftRight_eq_div_pow]
  rfl

/-- A sawtooth stays below its peak, as the phase stays below 2^32 (R137). -/
theorem contrib_sawtooth_lt (h : o.wave = .sawtooth) (hpos : 0 < peak p o.level c) :
    contrib p o i n c < peak p o.level c := by
  rw [contrib_sawtooth p i n c h]
  refine Nat.div_lt_of_lt_mul ?_
  rw [Nat.mul_comm (2 ^ 32)]
  exact Nat.mul_lt_mul_of_pos_left (phase i n).isLt hpos

/-- An increment of 0 keeps the phase at 0, where every waveform is silent (R136, R137). -/
theorem contrib_inc_zero : contrib p o 0#32 n c = 0 := by
  have hphase : (phase 0#32 n).toNat = 0 := by simp [phase]
  cases h : o.wave with
  | none => exact contrib_none p _ n c h
  | square =>
    rw [contrib_square p _ n c h, hphase]
    rfl
  | sawtooth => rw [contrib_sawtooth p _ n c h, hphase, Nat.mul_zero, Nat.zero_div]

end

/-- Settles O37: the three waveforms, with the phase as R133 writes it. -/
theorem contributionFollowsTheWaveform : Obligations.ContributionFollowsTheWaveform := by
  intro p o i n c ph pk
  have hph : (phase i n).toNat = ph := phase_toNat i n
  have hpk : peak p o.level c = pk := rfl
  refine ⟨contrib_none p i n c, fun h => ?_, fun h => ⟨?_, contrib_sawtooth_lt p i n c h⟩, contrib_le p o i n c, ?_⟩
  · simpa only [hph, hpk] using contrib_square p i n c h
  · simpa only [hph, hpk] using contrib_sawtooth p i n c h
  · rintro rfl
    exact contrib_inc_zero p n c

/-! ### Phase accumulators (R133) -/

/-- The three registers of R133 before the sample at index `m`: each holds its slot's phase. -/
def phaseRegisters (incs : Vector Word 3) (m : Word) : Vector Word 3 := incs.map fun i => phase i m

theorem phaseRegisters_getElem (incs : Vector Word 3) (m : Word) {k : Nat} (hk : k < 3) :
    (phaseRegisters incs m)[k] = phase incs[k] m :=
  Vector.getElem_map _ hk

/-- Adding the increment to the phase gives the next sample's phase. -/
theorem phase_succ (i m : Word) : phase i (m + 1#32) = phase i m + i := by
  rw [phase, phase, BitVec.add_mul, BitVec.one_mul]

/-- The registers, advanced by their increments, are the registers of the next sample. -/
theorem phaseRegisters_succ (incs : Vector Word 3) (m : Word) :
    #v[(phaseRegisters incs m)[0] + incs[0], (phaseRegisters incs m)[1] + incs[1], (phaseRegisters incs m)[2] + incs[2]] =
      phaseRegisters incs (m + 1#32) := by
  simp only [phaseRegisters_getElem, ← phase_succ]
  apply Vector.ext
  intro k hk
  match k with
  | 0 | 1 | 2 => exact (phaseRegisters_getElem incs _ hk).symm

/-- A register that holds the phase gives the slot's contribution. -/
theorem contribAt_phase (p : Params) (o : Osc) (i n : Word) (c : Nat) :
    Said.contribAt p o c (phase i n) = contrib p o i n c := by
  cases h : o.wave with
  | none => rw [contrib_none p i n c h, Said.contribAt, h]
  | square =>
    rw [contrib_square p i n c h, Said.contribAt, h]
    rfl
  | sawtooth =>
    rw [contrib_sawtooth p i n c h, Said.contribAt, h]
    rfl

/-- From the registers of index `m`, the accumulators give the samples at `m`, `m + 1`, and so on. -/
theorem accumulatorFill_phaseRegisters (p : Params) (osc : Vector Osc 3) (incs : Vector Word 3) (c n : Nat)
    (m : Word) :
    Said.accumulatorFill p osc c incs (phaseRegisters incs m) n =
      (List.range n).map fun i => sampleWord p osc incs c (m + BitVec.ofNat 32 i) := by
  induction n generalizing m with
  | zero => rfl
  | succ n ih =>
    have hindex : ∀ i, m + 1#32 + BitVec.ofNat 32 i = m + BitVec.ofNat 32 (i + 1) := by
      intro i
      rw [BitVec.add_assoc, ← BitVec.ofNat_add, Nat.add_comm]
    rw [Said.accumulatorFill, phaseRegisters_succ, ih, List.range_succ_eq_map, List.map_cons, List.map_map]
    simp only [phaseRegisters_getElem, contribAt_phase, hindex, BitVec.add_zero]
    rfl

/-- Settles O45: the registers start as the phases at S, and hold the phases at each sample from there. -/
theorem phaseAccumulatorsGiveTheSameFill : Obligations.PhaseAccumulatorsGiveTheSameFill := by
  intro n s hnote incs start
  have hincs : incs = s.arch.increments := by
    simp only [incs, slotInc_eq_incInt]
    rfl
  have hstart : start = phaseRegisters incs s.arch.scount := by
    simp only [start, phaseRegisters, phase, BitVec.ofNat_mul, BitVec.ofNat_toNat, BitVec.setWidth_eq]
  rw [exec_mixFill_sounding hnote, hstart, accumulatorFill_phaseRegisters, saidActiveCount_eq, hincs, ← BitVec.ofNat_toNat]
  rfl

end Sys2Proof.Machine
end

section
/-!
SUPPORT and PROOFS. The family of spec/42_mixer.md: the two commands that set the note (R160, R169), the reads (R166-R168), and
the fill, silent (R165) or sounding (R162-R164), with the cut of a fill in two (R170).
-/

namespace Sys2Proof

/-! ### The words of the mixer's commands (R70, R82) -/

theorem encode_mixSetNote (n : Byte) : encode (.mixSetNote n) = 0x20000000#32 ||| n.setWidth 32 :=
  (packWord_eq_or 0x20#8 0#2 (n.setWidth 16)).trans (congrArg _ (BitVec.setWidth_setWidth (by decide)))

theorem encode_mixFill_or (n : Half) : encode (.mixFill n) = 0x21000000#32 ||| n.setWidth 32 :=
  packWord_eq_or 0x21#8 0#2 n

/-- Bits 23:16 of a word without a slot are 0. -/
theorem pack_mid8 (op : BitVec 8) (imm : Half) : (packWord op 0#2 imm).extractLsb' 16 8 = 0#8 := by
  rw [packWord, BitVec.extractLsb'_append_eq_of_le (Nat.le_refl 16)]
  revert op; decide

end Sys2Proof

namespace Sys2Proof.Machine

/-- An operation that spells one command, whatever its fields, has one legal word. -/
theorem raises_of_op_ne_encode {o : Opcode} {i : Instr} (hi : ∀ k imm, o.toInstr k imm = i) {w : Word}
    (ho : opField w = o.code) (hne : w ≠ encode i) : Said.Raises w :=
  raises_of_not_legal fun hl => hne ((eq_encode_of_legal ho hl).trans (congrArg encode (hi _ _)))

/-! ### The note (R160, R169) -/

/-- Settles O38: the meaning is the clamp; a legal word with this OP is MIX_SET_NOTE's, which has no bit of 23:8 set. -/
theorem mixSetNoteClampsTheNote : Obligations.MixSetNoteClampsTheNote := by
  refine ⟨encode_mixSetNote, fun _ _ => rfl, fun w hop hbits => raises_of_not_legal fun hl => ?_⟩
  rw [eq_encode_of_legal (o := .mixSetNote) hop hl] at hbits
  exact hbits (pack_hi24 _ _)

/-- Settles O39: the sounding note is below 128, where the clamp is the identity. -/
theorem noteLatchCopiesTheSoundingNote : Obligations.NoteLatchCopiesTheSoundingNote := by
  have hword : encode .noteLatch = 0x40000000#32 := by decide
  refine ⟨hword, fun s => ⟨rfl, ?_⟩, fun w hop hne => ?_⟩
  · rw [Nat.min_eq_left (Nat.le_of_lt_succ (sounding_lt s.arch))]
    exact latched_toNat s.arch
  · exact raises_of_op_ne_encode (o := .noteLatch) (fun _ _ => rfl) hop (hword ▸ hne)

/-! ### The reads (R166-R168) -/

/-- Settles O43: the model's active count is the size of R161's set; each read has one legal word. -/
theorem mixGetAnswersTheMixerRegisters : Obligations.MixGetAnswersTheMixerRegisters := by
  have hnote : encode .mixGetNote = 0x28000000#32 := by decide
  have hactive : encode .mixGetActive = 0x29000000#32 := by decide
  have hscount : encode .mixGetScount = 0x2A000000#32 := by decide
  refine ⟨hnote, hactive, hscount, fun s => ⟨?_, ?_, rfl⟩, fun w hop hbits => ?_⟩
  · rw [BitVec.ofNat_toNat]
    rfl
  · rw [saidActiveCount_eq]
    rfl
  · have hne : ∀ v : Word, v.extractLsb' 0 24 = 0#24 → w ≠ v := fun v hv hw => hbits (hw ▸ hv)
    simp only [List.mem_cons, List.not_mem_nil, or_false] at hop
    rcases hop with h | h | h
    · exact raises_of_op_ne_encode (o := .mixGetNote) (fun _ _ => rfl) h (hne _ (by decide))
    · exact raises_of_op_ne_encode (o := .mixGetActive) (fun _ _ => rfl) h (hne _ (by decide))
    · exact raises_of_op_ne_encode (o := .mixGetScount) (fun _ _ => rfl) h (hne _ (by decide))

/-! ### The samples (R162-R165) -/

/-- Settles O40: the silent path of the fill. -/
theorem silentFillEmitsZerosAndKeepsTheCount : Obligations.SilentFillEmitsZerosAndKeepsTheCount :=
  fun n _ h => exec_mixFill_silent h n

/-- Settles O42: each active slot has at most its share of the maximum, which is a number of 16 bits. -/
theorem samplesNeverExceedTheMaximum : Obligations.SamplesNeverExceedTheMaximum := by
  intro p a incs n h
  have hle := sampleSum_le p h incs n
  exact ⟨hle, BitVec.toNat_ofNat _ 16 ▸ Nat.mod_eq_of_lt (hle.trans_lt p.maxAmplitude.isLt)⟩

/-- Settles O41: the samples are the model's, each R163's sum; S wraps as a 32-bit word does. -/
theorem fillEmitsTheMixedSamples : Obligations.FillEmitsTheMixedSamples := by
  refine ⟨encode_mixFill_or, fun n s hslots hnote => ?_, silentFillEmitsZerosAndKeepsTheCount,
    fun w hop hbits => raises_of_not_legal fun hl => ?_⟩
  · have hcount : BitVec.ofNat 32 ((s.arch.scount.toNat + n.toNat) % 2 ^ 32) =
        s.arch.scount + BitVec.ofNat 32 n.toNat := by
      apply BitVec.eq_of_toNat_eq
      simp
    refine ⟨fillSamples s.params s.arch n.toNat, ?_, fillSamples_length .., fun i hi =>
      fillSamples_getElem_toNat s.params hslots n.toNat hi⟩
    rw [hcount]
    exact exec_mixFill_sounding hnote n
  · rw [eq_encode_of_legal (o := .mixFill) hop hl] at hbits
    exact hbits (pack_mid8 _ _)

/-! ### A fill cut in two (R170) -/

theorem State.emitAll_emitAll (s : State) (vs ws : List Half) :
    (s.emitAll vs).emitAll ws = s.emitAll (vs ++ ws) := by
  simp [State.emitAll]

theorem State.advanceScount_advanceScount (s : State) (m n : Nat) :
    (s.advanceScount m).advanceScount n = s.advanceScount (m + n) := by
  simp [State.advanceScount, BitVec.add_assoc, BitVec.ofNat_add]

/-- The sample port and S do not meet. -/
theorem State.advanceScount_emitAll (s : State) (m : Nat) (vs : List Half) :
    (s.advanceScount m).emitAll vs = (s.emitAll vs).advanceScount m := rfl

/-- Settles O44: the first fill keeps CUR_NOTE, so both are silent, or the second goes on at the index the first reached. -/
theorem splitFillEqualsOneFill : Obligations.SplitFillEqualsOneFill := by
  intro a b s hfits
  have hlen : (a + b).toNat = a.toNat + b.toNat := BitVec.toNat_add_of_lt (Nat.lt_succ_of_le hfits)
  by_cases h : s.arch.curNote = 0#7
  · rw [exec_mixFill_silent h a, exec_mixFill_silent h (a + b), hlen, List.replicate_add, ← State.emitAll_emitAll]
    exact exec_mixFill_silent (s := s.emitAll _) h b
  · rw [exec_mixFill_sounding h a, exec_mixFill_sounding h (a + b), hlen, fillSamples_add, ← State.emitAll_emitAll,
      ← State.advanceScount_advanceScount, ← State.advanceScount_emitAll (s.emitAll _)]
    exact exec_mixFill_sounding (s := (s.emitAll _).advanceScount _) h b

end Sys2Proof.Machine
end

section
/-!
SUPPORT and PROOFS. The family of spec/43_midi_parser.md: the parser's transition table (R190-R195), the sounding note
(R197, R198), and what a whole message does from any state. A run over the words of MIDI bytes folds the parser over the
bytes; after a status byte and a data byte every parser awaits a velocity and holds that data byte, so what the third
byte does depends on the counters and ACT alone.
-/

namespace Sys2Proof

theorem encode_midiByte_or (b : Byte) : encode (.midiByte b) = 0x30000000#32 ||| b.setWidth 32 :=
  (packWord_eq_or 0x30#8 0#2 (b.setWidth 16)).trans (congrArg _ (BitVec.setWidth_setWidth (by decide)))

end Sys2Proof

namespace Sys2Proof.Machine

/-! ### A byte by its class (R190, R191) -/

theorem midiByte_realTime {b : Byte} (h : Said.isRealTime b) (a : Arch) : a.midiByte b = a := by
  rw [Arch.midiByte, (byteClass_realTime b).2 h]

theorem midiByte_on {b : Byte} (h : Said.isOn b) (a : Arch) : a.midiByte b = a.setMst .onNote := by
  rw [Arch.midiByte, (byteClass_noteOn b).2 h]

theorem midiByte_off {b : Byte} (h : Said.isOff b) (a : Arch) : a.midiByte b = a.setMst .offNote := by
  rw [Arch.midiByte, (byteClass_noteOff b).2 h]

theorem midiByte_other {b : Byte} (h : Said.isOther b) (a : Arch) : a.midiByte b = a.dataByte b := by
  rw [Arch.midiByte, (byteClass_other b).2 h]

section
variable {b : Byte} (hb : Said.isOther b) {a : Arch}
include hb

theorem midiByte_other_idle (h : a.mst = .idle) : a.midiByte b = a := by
  rw [midiByte_other hb, Arch.dataByte, h]

theorem midiByte_other_onNote (h : a.mst = .onNote) : a.midiByte b = a.capture b .onVel := by
  rw [midiByte_other hb, Arch.dataByte, h]

theorem midiByte_other_offNote (h : a.mst = .offNote) : a.midiByte b = a.capture b .offVel := by
  rw [midiByte_other hb, Arch.dataByte, h]

theorem midiByte_other_onVel (h : a.mst = .onVel) : a.midiByte b = (a.noteOn a.mnote b).setMst .idle := by
  rw [midiByte_other hb, Arch.dataByte, h]

theorem midiByte_other_offVel (h : a.mst = .offVel) : a.midiByte b = (a.noteOff a.mnote).setMst .idle := by
  rw [midiByte_other hb, Arch.dataByte, h]

end

/-- MIDI_BYTE replaces the record by the parser's next one, and nothing else. -/
theorem exec_midiByte_of_eq {b : Byte} {s : State} {a : Arch} (h : s.arch.midiByte b = a) :
    exec (.midiByte b) s = .next { s with arch := a } :=
  h ▸ exec_midiByte b s

/-! ### The note-on and the note-off as R193 and R194 write them -/

theorem saidNoteOn_eq (a : Arch) (n v : Byte) : Said.noteOn a n v = a.noteOn n v := rfl

theorem saidNoteOff_eq (a : Arch) (n : Byte) : Said.noteOff a n = a.noteOff n := rfl

/-! ### Whole messages, from any state of the parser -/

section
variable {b n v : Byte} (hn : Said.isOther n) (a : Arch)
include hn

theorem midiByte_on_data (hb : Said.isOn b) : (a.midiByte b).midiByte n = a.capture n .onVel := by
  rw [midiByte_on hb, midiByte_other_onNote hn rfl]
  rfl

theorem midiByte_off_data (hb : Said.isOff b) : (a.midiByte b).midiByte n = a.capture n .offVel := by
  rw [midiByte_off hb, midiByte_other_offNote hn rfl]
  rfl

theorem midiBytes_noteOn (hb : Said.isOn b) (hv : Said.isOther v) :
    [b, n, v].foldl Arch.midiByte a = ((a.capture n .onVel).noteOn n v).setMst .idle := by
  simp only [List.foldl_cons, List.foldl_nil]
  rw [midiByte_on_data hn a hb, midiByte_other_onVel hv rfl]
  rfl

theorem midiBytes_noteOff (hb : Said.isOff b) (hv : Said.isOther v) :
    [b, n, v].foldl Arch.midiByte a = ((a.capture n .offVel).noteOff n).setMst .idle := by
  simp only [List.foldl_cons, List.foldl_nil]
  rw [midiByte_off_data hn a hb, midiByte_other_offVel hv rfl]
  rfl

end

section
variable {b n v : Byte} (hn : n.toNat < 128) (a : Arch)

/-- A note-on with velocity 0 clears the note's counter and leaves the parser idle. -/
theorem midiBytes_noteOn_zero (hb : Said.isOn b) :
    [b, n, 0#8].foldl Arch.midiByte a = (a.capture n .idle).setCtr ⟨n.toNat, hn⟩ 0#32 := by
  rw [midiBytes_noteOn (.inl (Nat.le_of_lt_succ hn)) a hb (.inl (Nat.zero_le _)), noteOn_zero _ hn]
  rfl

/-- A note-on with another velocity gives the note's counter the next activation and leaves the parser idle. -/
theorem midiBytes_noteOn_pos (hb : Said.isOn b) (hv : v.toNat < 128) (hpos : v ≠ 0#8) :
    [b, n, v].foldl Arch.midiByte a = ({ a.capture n .idle with act := nextActivation a.act } : Arch).setCtr
      ⟨n.toNat, hn⟩ (nextActivation a.act) := by
  rw [midiBytes_noteOn (.inl (Nat.le_of_lt_succ hn)) a hb (.inl (Nat.le_of_lt_succ hv)), noteOn_pos _ hn hpos]
  rfl

/-- A note-off with any velocity clears the note's counter and leaves the parser idle. -/
theorem midiBytes_noteOff_any (hb : Said.isOff b) (hv : v.toNat < 128) :
    [b, n, v].foldl Arch.midiByte a = (a.capture n .idle).setCtr ⟨n.toNat, hn⟩ 0#32 := by
  rw [midiBytes_noteOff (.inl (Nat.le_of_lt_succ hn)) a hb (.inl (Nat.le_of_lt_succ hv)), noteOff_eq_setCtr _ hn]
  rfl

end

/-- A run over the words of MIDI bytes folds the parser over the bytes. -/
theorem runsTo_midiBytes (bs : List Byte) (s : State) :
    s.RunsTo (bs.map fun b => encode (.midiByte b))
      { s with cmdPort := [], arch := bs.foldl Arch.midiByte s.arch } := by
  induction bs generalizing s with
  | nil => exact (runsTo_nil s _).2 rfl
  | cons b bs ih => exact (runsTo_encode_cons rfl (exec_midiByte_of_eq rfl) _ _).2 (ih _)

/-! ### The sounding note -/

/-- The sounding note is a function of the counters. -/
theorem sounding_congr {a c : Arch} (h : a.ctr = c.ctr) : a.sounding = c.sounding := by
  rw [Arch.sounding, Arch.sounding, h]

/-- A counter written with a value above every counter's names the sounding note. -/
theorem sounding_setCtr {a : Arch} {v : Word} (n : Fin 128) (h : ∀ j : Fin 128, a.ctr[j].toNat < v.toNat) :
    (a.setCtr n v).sounding = n.val := by
  have hself : (a.setCtr n v).ctr[n] = v := by rw [Arch.setCtr_getElem, if_pos rfl]
  refine sounding_eq n ?_ fun j hj => ?_
  · rw [hself]
    exact Nat.zero_lt_of_lt (h n)
  · rw [hself, Arch.setCtr_getElem, if_neg (Ne.symm hj)]
    exact h j

/-- Writing a counter that is 0 and clearing it again leaves the counters as they were. -/
theorem setCtr_clear_ctr {a c : Arch} {n : Fin 128} {v : Word} (h : c.ctr = (a.setCtr n v).ctr) (hz : a.ctr[n] = 0#32) :
    (c.setCtr n 0#32).ctr = a.ctr := by
  rw [Arch.setCtr_ctr, h, Arch.setCtr_ctr, Vector.set_set, ← hz]
  exact Vector.set_getElem_self n.isLt

/-! ### The obligations -/

/-- Settles O48: the classes by their ranges; the bytes of one high nibble 9 or 8 have one meaning. -/
theorem everyByteIsInExactlyOneClass : Obligations.EveryByteIsInExactlyOneClass := by
  refine ⟨fun b => ⟨byteClass_realTime b, byteClass_noteOn b, byteClass_noteOff b, byteClass_other b⟩,
    fun s c d hc hd => ?_⟩
  have hon : ∀ e : Byte, e.toNat < 16 → Said.isOn (0x90#8 + e) := by decide
  have hoff : ∀ e : Byte, e.toNat < 16 → Said.isOff (0x80#8 + e) := by decide
  exact ⟨(exec_midiByte_of_eq (midiByte_on (hon c hc) _)).trans (exec_midiByte_of_eq (midiByte_on (hon d hd) _)).symm,
    (exec_midiByte_of_eq (midiByte_off (hoff c hc) _)).trans (exec_midiByte_of_eq (midiByte_off (hoff d hd) _)).symm⟩

/-- Settles O49: the table cell by cell; a legal word with this OP is MIDI_BYTE's, which has no bit of 23:8 set. -/
theorem midiByteFollowsTheTransitionTable : Obligations.MidiByteFollowsTheTransitionTable := by
  refine ⟨encode_midiByte_or, fun b s hb => exec_midiByte_of_eq (midiByte_realTime hb _),
    fun b s hb => exec_midiByte_of_eq (midiByte_on hb _), fun b s hb => exec_midiByte_of_eq (midiByte_off hb _),
    fun b s hb hm => exec_midiByte_of_eq (midiByte_other_idle hb hm),
    fun b s hb hm => exec_midiByte_of_eq (midiByte_other_onNote hb hm),
    fun b s hb hm => exec_midiByte_of_eq (midiByte_other_offNote hb hm), fun b s hb hm => ?_, fun b s hb hm => ?_,
    fun w hop hbits => raises_of_not_legal fun hl => ?_⟩
  · rw [saidNoteOn_eq]
    exact exec_midiByte_of_eq (midiByte_other_onVel hb hm)
  · rw [saidNoteOff_eq]
    exact exec_midiByte_of_eq (midiByte_other_offVel hb hm)
  · rw [eq_encode_of_legal (o := .midiByte) hop hl] at hbits
    exact hbits (pack_hi24 _ _)

/-- Settles O51: the scan's two outcomes are the two cases. -/
theorem soundingIsTheFirstLargestCounter : Obligations.SoundingIsTheFirstLargestCounter := by
  intro a
  rcases sounding_cases a with ⟨hzero, hsound⟩ | ⟨k, hsound, hpos, hmax, hfirst⟩
  · exact ⟨fun _ => hsound, fun ⟨i, hi⟩ => absurd (hzero i) hi⟩
  · have hk : a.ctr[k] ≠ 0#32 := fun h => by simp [h] at hpos
    exact ⟨fun hzero => absurd (hzero k) hk, fun _ => ⟨k, hsound, hk, hmax, hfirst⟩⟩

/-- Settles O52: the sounding note is below 128, so its word holds it. -/
theorem midiGetNoteAnswersTheSoundingNote : Obligations.MidiGetNoteAnswersTheSoundingNote := by
  have hword : encode .midiGetNote = 0x38000000#32 := by decide
  refine ⟨hword, fun s => ?_, fun w hop hne =>
    raises_of_op_ne_encode (o := .midiGetNote) (fun _ _ => rfl) hop (hword ▸ hne)⟩
  have hlt := sounding_lt s.arch
  have hval : (BitVec.ofNat 32 s.arch.sounding).toNat = s.arch.sounding := by
    rw [BitVec.toNat_ofNat, Nat.mod_eq_of_lt (by omega)]
  exact ⟨_, rfl, hval, hval.trans_le (Nat.le_of_lt_succ hlt)⟩

/-- Settles O53: below saturation the next activation is above ACT, which bounds every counter; the note-off undoes the
one write of the counters. -/
theorem latestNoteOnSoundsUntilItsNoteOff : Obligations.LatestNoteOnSoundsUntilItsNoteOff := by
  intro s n v hn hinv hpos hv hact
  obtain ⟨hbound, -⟩ := hinv.counters
  have hnext : (nextActivation s.arch.act).toNat = s.arch.act.toNat + 1 := by
    rw [nextActivation_toNat]
    omega
  have hv0 : v ≠ 0#8 := fun h => by simp [h] at hpos
  have hon := midiBytes_noteOn_pos (b := 0x90#8) hn s.arch (by decide) hv hv0
  refine ⟨⟨_, runsTo_midiBytes [0x90#8, n, v] s, ?_, ?_, ?_⟩, fun hoff => ⟨_,
    runsTo_midiBytes ([0x90#8, n, v] ++ [0x80#8, n, 0#8]) s, ?_⟩⟩
  · simp only [hon]
    refine sounding_setCtr _ fun j => ?_
    rw [hnext]
    exact Nat.lt_succ_of_le (hbound j)
  · simp only [hon]
    rfl
  · simp only [hon]
    exact hnext
  · have hctr : (([0x90#8, n, v] ++ [0x80#8, n, 0#8]).foldl Arch.midiByte s.arch).ctr = s.arch.ctr := by
      rw [List.foldl_append, midiBytes_noteOff_any hn _ (by decide) (by decide), hon]
      exact setCtr_clear_ctr rfl hoff
    exact ⟨sounding_congr hctr, hctr⟩

/-- Settles O54: both messages clear the note's counter and leave the parser idle with the note captured. -/
theorem velocityZeroActsAsNoteOff : Obligations.VelocityZeroActsAsNoteOff := by
  intro s n v hn hv
  have hzero := runsTo_midiBytes [0x90#8, n, 0#8] s
  have hoff := runsTo_midiBytes [0x80#8, n, v] s
  rw [midiBytes_noteOn_zero hn _ (by decide)] at hzero
  rw [midiBytes_noteOff_any hn _ (by decide) hv] at hoff
  simp only [List.map_cons, List.map_nil, encode_midiByte] at hoff
  exact ⟨_, hzero, hoff, rfl, rfl⟩

/-- Settles O55: after the two bytes MST and MNOTE are the message's own, and the counters and ACT are as before. -/
theorem statusByteRestartsTheParser : Obligations.StatusByteRestartsTheParser := by
  intro s u b d hctr hact hb hd
  refine ⟨_, _, runsTo_midiBytes [b, d] s, runsTo_midiBytes [b, d] u, ?_⟩
  simp only [List.foldl_cons, List.foldl_nil]
  rcases hb with hb | hb
  · rw [midiByte_on_data hd _ hb, midiByte_on_data hd _ hb]
    exact ⟨hctr, hact, rfl, rfl⟩
  · rw [midiByte_off_data hd _ hb, midiByte_off_data hd _ hb]
    exact ⟨hctr, hact, rfl, rfl⟩

end Sys2Proof.Machine
end

section
/-!
PROOFS. The family of spec/44_control.md: the read of ERR (R221). NOP (R220) is with FREQ_INIT in the family of
spec/40_frequency_rom.md.
-/

namespace Sys2Proof.Machine

/-- Settles O56: the answer is R22's word of ERR, for either value of ERR; the operation has one legal word. -/
theorem getStatusAnswersErr : Obligations.GetStatusAnswersErr := by
  have hword : encode .getStatus = 0x48000000#32 := by decide
  obtain ⟨-, -, hread⟩ := errIsStickyAndOnlyIllegalWordsSetIt
  refine ⟨hword, fun s herr => ?_, fun s herr => ?_, fun w hop hne =>
    raises_of_op_ne_encode (o := .getStatus) (fun _ _ => rfl) hop (hword ▸ hne)⟩
  · rw [hread s, if_pos herr]
  · rw [hread s, if_neg (Bool.eq_false_iff.mp herr)]

end Sys2Proof.Machine
end

section
/-!
PROOFS. The family of spec/60_exceptions.md: the one exception, IllegalCommand (R240, R241), and that nothing stops the
block (R241, R242).
-/

namespace Sys2Proof.Machine

/-- Settles O10: the decoder rejects only illegal words, and a command with an illegal operand value takes the same
exception. -/
theorem illegalCommandOnlySetsErr : Obligations.IllegalCommandOnlySetsErr :=
  ⟨fun _ _ hd => raises_of_not_legal (not_legal_of_reject hd), fun _ s hwf => exec_of_not_wellFormed hwf s⟩

/-- Settles O11: each cause of R240 contradicts one conjunct of R77's `Legal`. -/
theorem everyCauseRaisesIllegalCommand : Obligations.EveryCauseRaisesIllegalCommand := by
  obtain ⟨-, -, hread⟩ := errIsStickyAndOnlyIllegalWordsSetIt
  refine ⟨fun w hop => ?unassignedOp, fun w hres => ?reserved, fun w hop hk => ?slotThree, fun w hop hk => ?slotNonzero,
    fun w himm => ?unusedImm, fun w hop hcode => ?waveCode, fun w hop hlevel => ?level, fun w hop hcent => ?cent,
    fun s => hread (Said.errOnly s)⟩ <;>
    refine raises_of_not_legal fun ⟨lop, lres, lslot, limm, lwave, llevel, lcent⟩ => ?_
  case unassignedOp => exact hop lop
  case reserved => exact hres lres
  case slotThree =>
    rw [if_pos hop, hk] at lslot
    exact absurd lslot (by decide)
  case slotNonzero =>
    rw [if_neg hop] at lslot
    exact hk lslot
  case unusedImm => exact himm limm
  case waveCode =>
    have hle := lwave hop
    rw [hcode] at hle
    exact absurd hle (by decide)
  case level =>
    have hle := llevel hop
    omega
  case cent =>
    have hrange := lcent hop
    omega

/-- Settles O12: a step waits, takes the exception or completes its command; each answers a next state. -/
theorem everyStepCompletes : Obligations.EveryStepCompletes := by
  intro s
  rcases step_cases s with ⟨-, hwait⟩ | ⟨w, rest, -, ⟨r, -, hraise⟩ | ⟨i, t, -, -, hexec, -⟩⟩
  · exact ⟨s, hwait⟩
  · exact ⟨_, hraise⟩
  · exact ⟨t, hexec⟩

end Sys2Proof.Machine
end

section
/-!
PROOFS. The family of spec/70_reset_and_hazards.md: what every field holds after reset, at power-on and after a loss of
power (R260).
-/

namespace Sys2Proof.Machine

/-- Power-up is reset (R252): only the parameter, which is configuration, is still the block's own. -/
theorem State.powerCycle_eq (s : State) : s.powerCycle = { State.reset with params := s.params } := rfl

/-- Every note is off after reset (R32). -/
theorem State.reset_ctr (i : Fin 128) : State.reset.arch.ctr[i] = 0#32 :=
  Vector.getElem_replicate i.isLt

/-- Settles O14: a loss of power keeps nothing but the parameter, and each field of the reset record is its rule's value. -/
theorem resetGivesEveryFieldItsValue : Obligations.ResetGivesEveryFieldItsValue := by
  refine ⟨fun s => ?powerLoss, ?osc0, ?osc1, ?osc2, ?curNote, ?scount, State.reset_ctr, ?act, ?mst, ?mnote, ?err,
    ?cmdPort, ?outPort⟩
  case powerLoss =>
    rw [State.powerCycle_eq]
    exact ⟨rfl, rfl⟩
  all_goals rfl

end Sys2Proof.Machine
end
